-- ==== Sys2Proof/Word.lean ====
section
/-! DEFINITION. Bytes, packets and the Colour value (spec/40_colour_model.md R73, spec/30_encoding.md R50). -/

namespace Sys2Proof

/-- A byte: bit 7 is its most significant bit (00_scope.md, Notation). -/
abbrev Byte := BitVec 8

/-- A command packet: its bytes, first byte first; the CMD port marks where it ends, so the list's length is the
packet's `n` (R50). -/
abbrev Packet := List Byte

/-- A Colour: four 8-bit unsigned values, every combination legal (R73). -/
structure Colour where
  r : Byte
  g : Byte
  b : Byte
  l : Byte
deriving DecidableEq, Repr, Inhabited

/-- The predefined Colour Off, (0, 0, 0, 0) (R74): the stored colour of every LED after reset (R30). -/
def Colour.off : Colour := ⟨0, 0, 0, 0⟩

end Sys2Proof
end

