-- ==== Sys2Proof/Syntax.lean ====
section
/-! DEFINITION. The twelve commands (spec/30_encoding.md R54, R55), their formats (R51) and their operands (R53). -/

namespace Sys2Proof

/-- A command with its operands assembled by R53. One constructor per row of spec/opcode_table.json.

`cfgGamma` holds its operand as the byte of the packet: which bytes are legal is a check of `WellFormed`. DESIGN CHOICE
(log entry 9): safe. -/
inductive Instr where
  /-- CFG_ORDER: the order string, any characters, any length (R96). -/
  | cfgOrder (str : List Byte)
  /-- CFG_GAMMA: 0 NONE, 1 TABLE, 2 CUSTOM; 3 to 255 reserved (R90, R57). -/
  | cfgGamma (mode : Byte)
  /-- INIT: the end of construction (R104). -/
  | init
  /-- SET_COLOUR: a 32-bit two's-complement position and a Colour (R106). -/
  | setColour (pos : BitVec 32) (c : Colour)
  /-- SET_COLOURS: `k >= 0` Colours (R108). -/
  | setColours (e : List Colour)
  /-- GET_COLOUR: a position (R110). -/
  | getColour (pos : BitVec 32)
  /-- SNAPSHOT (R112). -/
  | snapshot
  /-- SET_BRIGHTNESS: one byte, the whole range legal (R114). -/
  | setBrightness (v : Byte)
  /-- GET_BRIGHTNESS (R116). -/
  | getBrightness
  /-- CLEAR (R118). -/
  | clear
  /-- UPDATE (R120). -/
  | update
  /-- BLEND: original, target and the 16-bit two's-complement ratio `q`, standing for `q / 256` (R78, R77). -/
  | blend (o t : Colour) (q : BitVec 16)
deriving DecidableEq, Repr

/-- The seven packet formats (R51). -/
inductive Format where
  | Z | B | P | PC | L | S | CCR
deriving DecidableEq, Repr

/-- The names of the twelve commands (R54). -/
inductive Command where
  | cfgOrder | cfgGamma | init | setColour | setColours | getColour
  | snapshot | setBrightness | getBrightness | clear | update | blend
deriving DecidableEq, Repr

/-- The command a decoded packet carries. -/
def Instr.command : Instr → Command
  | .cfgOrder _ => .cfgOrder
  | .cfgGamma _ => .cfgGamma
  | .init => .init
  | .setColour _ _ => .setColour
  | .setColours _ => .setColours
  | .getColour _ => .getColour
  | .snapshot => .snapshot
  | .setBrightness _ => .setBrightness
  | .getBrightness => .getBrightness
  | .clear => .clear
  | .update => .update
  | .blend _ _ _ => .blend

end Sys2Proof
end

