-- ==== Sys2Proof/WellFormed.lean ====
section
/-! DEFINITION. Which terms of `Instr` a legal packet can carry (spec/30_encoding.md R53, R57). -/

namespace Sys2Proof

/-- The one operand value that no legal packet carries is a reserved gamma mode, 3 to 255 (R57). Strings and lists have
any length (R50), every Colour, position, brightness value and ratio is legal (R53). -/
def Instr.wf : Instr → Bool
  | .cfgOrder _ => true
  | .cfgGamma mode => decide (mode.toNat ≤ 2)
  | .init => true
  | .setColour _ _ => true
  | .setColours _ => true
  | .getColour _ => true
  | .snapshot => true
  | .setBrightness _ => true
  | .getBrightness => true
  | .clear => true
  | .update => true
  | .blend _ _ _ => true

abbrev WellFormed (i : Instr) : Prop := i.wf = true

end Sys2Proof
end

