-- ==== Sys2Proof/Decode.lean ====
section
/-! DEFINITION. The packet decoder (spec/30_encoding.md R56), total and rejecting by name, and the encoder
(R51, R52, R54). -/

namespace Sys2Proof

/-! ## The opcode map -/

/-- `p[0]` of each command (R54). -/
def Command.opcode : Command → Byte
  | .cfgOrder => 0x01
  | .cfgGamma => 0x02
  | .init => 0x03
  | .setColour => 0x10
  | .setColours => 0x11
  | .getColour => 0x12
  | .snapshot => 0x13
  | .setBrightness => 0x14
  | .getBrightness => 0x15
  | .clear => 0x16
  | .update => 0x17
  | .blend => 0x20

/-- The format of each command (R54). -/
def Command.format : Command → Format
  | .cfgOrder => .S
  | .cfgGamma => .B
  | .init => .Z
  | .setColour => .PC
  | .setColours => .L
  | .getColour => .P
  | .snapshot => .Z
  | .setBrightness => .B
  | .getBrightness => .Z
  | .clear => .Z
  | .update => .Z
  | .blend => .CCR

/-- The rows of the opcode map, in its order. -/
def Command.all : List Command :=
  [.cfgOrder, .cfgGamma, .init, .setColour, .setColours, .getColour,
    .snapshot, .setBrightness, .getBrightness, .clear, .update, .blend]

/-- The command `p[0]` selects, if it is one of the twelve opcodes (R54). -/
def Command.ofOpcode? (op : Byte) : Option Command :=
  Command.all.find? (fun c => c.opcode == op)

/-- Whether a packet of `n >= 1` bytes has a length its format allows (R51, R56). -/
def Format.lengthOk : Format → Nat → Bool
  | .Z, n => n == 1
  | .B, n => n == 2
  | .P, n => n == 5
  | .PC, n => n == 9
  | .CCR, n => n == 11
  | .L, n => (n - 1) % 4 == 0
  | .S, _ => true

/-! ## Byte order -/

/-- `be(b0, b1)`: the first byte is the most significant (R37). -/
def be16 (b0 b1 : Byte) : BitVec 16 := b0 ++ b1

/-- `be(b0, b1, b2, b3)` (R37). -/
def be32 (b0 b1 b2 b3 : Byte) : BitVec 32 := (b0 ++ b1) ++ (b2 ++ b3)

/-- The bytes of a 16-bit operand, most significant first (R37). -/
def be16Bytes (v : BitVec 16) : List Byte := [v.extractLsb' 8 8, v.extractLsb' 0 8]

/-- The bytes of a 32-bit operand, most significant first (R37). -/
def be32Bytes (v : BitVec 32) : List Byte :=
  [v.extractLsb' 24 8, v.extractLsb' 16 8, v.extractLsb' 8 8, v.extractLsb' 0 8]

/-- A Colour as four bytes in the order R, G, B, L (R37, R53). -/
def Colour.bytes (c : Colour) : List Byte := [c.r, c.g, c.b, c.l]

/-- A list of Colours as bytes, format L (R52) and the payload of SNAPSHOT (R61). -/
def coloursBytes : List Colour → List Byte
  | [] => []
  | c :: cs => c.bytes ++ coloursBytes cs

/-- The Colours of a byte sequence of length `4k`; none for any other length (format L, R52, R56). -/
def coloursOfBytes : List Byte → Option (List Colour)
  | [] => some []
  | r :: g :: b :: l :: rest => (coloursOfBytes rest).map (fun cs => ⟨r, g, b, l⟩ :: cs)
  | _ => none

/-! ## The decoder -/

/-- Why a packet is illegal (R57). Each is answered ERR_ILLEGAL. -/
inductive Illegal where
  /-- The empty packet. -/
  | emptyPacket
  /-- `p[0]` is not one of the twelve opcodes. -/
  | unknownOpcode (op : Byte)
  /-- The packet's length is not one its format allows. -/
  | wrongLength (c : Command)
  /-- A CFG_GAMMA packet whose mode byte is 3 to 255. -/
  | reservedMode (mode : Byte)
deriving DecidableEq, Repr

/-- Format Z: no operand bytes (R51, R52). -/
def operandsZ (c : Command) (i : Instr) : List Byte → Except Illegal Instr
  | [] => .ok i
  | _ => .error (.wrongLength c)

/-- Format B: one operand byte. -/
def operandsB (c : Command) (k : Byte → Except Illegal Instr) : List Byte → Except Illegal Instr
  | [v] => k v
  | _ => .error (.wrongLength c)

/-- Format P: a position, most significant byte first. -/
def operandsP (c : Command) (k : BitVec 32 → Instr) : List Byte → Except Illegal Instr
  | [p1, p2, p3, p4] => .ok (k (be32 p1 p2 p3 p4))
  | _ => .error (.wrongLength c)

/-- Format PC: a position and a Colour. -/
def operandsPC (c : Command) (k : BitVec 32 → Colour → Instr) : List Byte → Except Illegal Instr
  | [p1, p2, p3, p4, r, g, b, l] => .ok (k (be32 p1 p2 p3 p4) ⟨r, g, b, l⟩)
  | _ => .error (.wrongLength c)

/-- Format L: a list of Colours. -/
def operandsL (c : Command) (k : List Colour → Instr) (bytes : List Byte) : Except Illegal Instr :=
  match coloursOfBytes bytes with
  | some e => .ok (k e)
  | none => .error (.wrongLength c)

/-- Format CCR: original Colour, target Colour, ratio. -/
def operandsCCR (c : Command) (k : Colour → Colour → BitVec 16 → Instr) : List Byte → Except Illegal Instr
  | [r, g, b, l, r', g', b', l', q1, q0] => .ok (k ⟨r, g, b, l⟩ ⟨r', g', b', l'⟩ (be16 q1 q0))
  | _ => .error (.wrongLength c)

/-- CFG_GAMMA's operand, with the decoder's last check: modes 3 to 255 are reserved (R56, R57). -/
def gammaOperand (mode : Byte) : Except Illegal Instr :=
  if mode.toNat ≤ 2 then .ok (.cfgGamma mode) else .error (.reservedMode mode)

/-- The operand bytes of a command, by its format (R52, R53). -/
def decodeOperands (c : Command) (bytes : List Byte) : Except Illegal Instr :=
  match c with
  | .cfgOrder => .ok (.cfgOrder bytes)
  | .cfgGamma => operandsB c gammaOperand bytes
  | .init => operandsZ c .init bytes
  | .setColour => operandsPC c .setColour bytes
  | .setColours => operandsL c .setColours bytes
  | .getColour => operandsP c .getColour bytes
  | .snapshot => operandsZ c .snapshot bytes
  | .setBrightness => operandsB c (fun v => .ok (.setBrightness v)) bytes
  | .getBrightness => operandsZ c .getBrightness bytes
  | .clear => operandsZ c .clear bytes
  | .update => operandsZ c .update bytes
  | .blend => operandsCCR c .blend bytes

/-- The decoder (R56): every byte sequence is a legal command with its operands, or illegal for a named reason. It does
not look at PHASE (R58). -/
def decode : Packet → Except Illegal Instr
  | [] => .error .emptyPacket
  | op :: operands =>
    match Command.ofOpcode? op with
    | none => .error (.unknownOpcode op)
    | some c => decodeOperands c operands

/-! ## The encoder -/

/-- The operand bytes of a command (R52). -/
def Instr.operandBytes : Instr → List Byte
  | .cfgOrder str => str
  | .cfgGamma mode => [mode]
  | .init => []
  | .setColour pos c => be32Bytes pos ++ c.bytes
  | .setColours e => coloursBytes e
  | .getColour pos => be32Bytes pos
  | .snapshot => []
  | .setBrightness v => [v]
  | .getBrightness => []
  | .clear => []
  | .update => []
  | .blend o t q => o.bytes ++ t.bytes ++ be16Bytes q

/-- The packet of a command (R51, R54). -/
def encode (i : Instr) : Packet := i.command.opcode :: i.operandBytes

/-! ## Words of the opcode table -/

/-- The first `n` bytes of a table word, the first byte of the packet in bits 7..0. -/
def wordBytes (n w : Nat) : List Byte := (List.range n).map (fun j => BitVec.ofNat 8 (w >>> (8 * j)))

/-- The shortest packet length at least `n` that the format allows; a fixed length shorter than `n` is not shortened to. -/
def Format.padTo : Format → Nat → Nat
  | .Z, n => max n 1
  | .B, n => max n 2
  | .P, n => max n 5
  | .PC, n => max n 9
  | .CCR, n => max n 11
  | .L, n => 1 + 4 * ((n - 1 + 3) / 4)
  | .S, n => max n 1

/-- The packet of a table word: its `nbits / 8` bytes, and operand bytes of zero up to a length its format allows,
since the port's framing is what carries a packet's length (R50, R58). DESIGN CHOICE (log entry 6): safe. -/
def tablePacket (nbits w : Nat) : Packet :=
  let n := nbits / 8
  let bytes := wordBytes n w
  match bytes with
  | [] => []
  | op :: _ =>
    match Command.ofOpcode? op with
    | none => bytes
    | some c => bytes ++ List.replicate (c.format.padTo n - n) 0

/-- What the decoder reads from a table word. -/
def decodeTableWord (nbits w : Nat) : Option Instr :=
  match decode (tablePacket nbits w) with
  | .ok i => some i
  | .error _ => none

end Sys2Proof
end

