-- ==== Sys2Proof/Config.lean ====
section
/-! DEFINITION. What one built block fixes and the spec leaves open (spec/92_eei_decisions.md, "Open parameters in one
place"). Every constant is opaque and has no body: a claim about the model holds for every value of it. -/

namespace Sys2Proof

/-- The LED count less one. Its type carries the two premises of R7: `1 <= N_LEDS` and `N_LEDS <= 2^31 - 1`.
DESIGN CHOICE (log entry 1): safe. -/
opaque Config.nLedsPred : Fin 2147483647

/-- `N_LEDS` (R7): fixed when the block is built. -/
def Config.nLeds : Nat := Config.nLedsPred.val + 1

/-- Raw values from which `GAMMA_TABLE` (R9) is made in Machine/Gamma.lean, so that it has the properties (G1) to (G4)
of R83 and no others. DESIGN CHOICE (log entry 2): safe, every table with the properties can be made so. -/
opaque Config.gammaRaw : Byte → Byte

/-- `G_custom` (R11): the substituted gamma function; nothing is known of it but that it is a function of the Colour
it is given. DESIGN CHOICE (log entry 3): safe. -/
opaque Config.gCustom : Colour → Colour

/-- Host side: what HexParse returns for a text of length 7 or 9 that is not `#` followed by hexadecimal digits
(R130, 93_implementation_defined.md U1): any value in every field. DESIGN CHOICE (log entry 12): unsafe for a claim that
two calls on the same text agree. -/
opaque Config.hexMalformed : List Char → Colour

/-- Host side: whether the formatted description writes its hexadecimal digits in upper case; R131 leaves it open. DESIGN CHOICE (log entry 13): safe. -/
opaque Config.hexUpper : Bool

end Sys2Proof
end

