-- ==== Sys2Proof/Machine/State.lean ====
section
/-! DEFINITION. The state of the block (spec/10_state.md R13-R20, R24), its ports' streams (spec/30_encoding.md R49)
and the reset contents (R30). -/

namespace Sys2Proof.Machine

/-! ## The control fields -/

/-- GMODE (R16): NONE, TABLE, CUSTOM, in the names DS §9 gives the three variants. The value 3 is never held, so the
type has no fourth value. DEDUCED (log entry 8): safe. -/
inductive GMode where
  | noCorrection
  | tableCorrection
  | customCorrection
deriving DecidableEq, Repr

/-- PHASE (R19). -/
inductive Phase where
  | config
  | run
deriving DecidableEq, Repr

/-- A channel offset, OFFR, OFFG or OFFB (R17): 1, 2 or 3. The value 0 is never held, so the type has no such value.
DEDUCED (log entry 8): safe. -/
inductive Slot where
  | one
  | two
  | three
deriving DecidableEq, Repr

/-- A channel's slot in the record (R17): the offset's value. -/
def Slot.index : Slot → Nat
  | .one => 1
  | .two => 2
  | .three => 3

/-! ## What passes the ports -/

/-- The status of a response (R60). -/
inductive Status where
  | ok
  | errOrderMissing
  | errOrderMalformed
  | errSendSink
  | errSendShort
  | errPhase
  | errIllegal
  | errConfig
deriving DecidableEq, Repr

/-- One response on RSP (R59): a status and a payload. -/
structure Response where
  status : Status
  payload : List Byte
deriving DecidableEq, Repr

/-- What the host offers on its ports, one at a time: a packet on CMD (R50) or a reset request on RST (R151). -/
inductive HostEvent where
  | packet (p : Packet)
  | reset
deriving DecidableEq, Repr

/-- The sink's answer to one offer (R62): how many bytes it accepted, and whether it reports an error. Any count may
come with either value of the flag. -/
structure SinkAnswer where
  acc : Nat
  err : Bool
deriving DecidableEq, Repr

/-- One transaction on SNK (R62): the bytes offered and the sink's answer. -/
structure Offer where
  bytes : List Byte
  answer : SinkAnswer
deriving DecidableEq, Repr

/-! ## The state -/

/-- The contents of BUF: (index, byte) pairs in rising order of index; an index not listed holds 0. DEDUCED (log entry
7): safe. -/
abbrev Memory := List Host.Cell

/-- The state. The first nine fields are the block's own (R13-R20). The last four are the model's: the streams of its
ports, inputs oldest first and outputs oldest first (R163). DESIGN CHOICE (log entries 4 and 5): safe. -/
structure State where
  /-- COL (R13), the colour of LED i at index i. Its length is `N_LEDS`. -/
  col : List Colour
  /-- BUF (R14). -/
  buf : Memory
  /-- GBRIGHT (R15). -/
  gbright : Byte
  /-- GMODE (R16). -/
  gmode : GMode
  /-- OFFR (R17). -/
  offR : Slot
  /-- OFFG (R17). -/
  offG : Slot
  /-- OFFB (R17). -/
  offB : Slot
  /-- PHASE (R19). -/
  phase : Phase
  /-- CFGERR (R20). -/
  cfgerr : Bool
  /-- CMD and RST: what the host has yet to offer. -/
  host : List HostEvent
  /-- SNK, towards the block: the answers the sink has yet to give. -/
  sink : List SinkAnswer
  /-- RSP: the responses given. -/
  rsp : List Response
  /-- SNK, towards the sink: the offers made and answered. -/
  snk : List Offer
deriving DecidableEq, Repr

/-- Why the machine stops. -/
inductive Fault where
  /-- Raised by UPDATE in phase RUN when the sink gives no answer to its offer: UPDATE does not finish, no response is
  given and no later command is taken (R160; 93_implementation_defined.md U5, `stuck`). DESIGN CHOICE (log entry 4).
  Safe: nothing is claimed of a block whose sink never answers. -/
  | sinkSilent
deriving DecidableEq, Repr

/-- Why an instruction has no meaning. -/
inductive Refusal where
  /-- Raised by no arm of exec: every command has its meaning. Safe: the machine stops. -/
  | notModelled (mnemonic : String)
deriving DecidableEq, Repr

/-! ## Reset contents -/

/-- BUF after reset (R30): the record of every LED is E0 00 00 00, the header and the footer are zero. The optional
parameter RESET_RENDERS of decision D15 is not taken: DEDUCED (log entry 10), unsafe for a block of the other reading. -/
def resetBuf (n : Nat) : Memory := (List.range n).map (fun i => (4 + 4 * i, 0xE0))

/-- The reset contents of R30 for a block of `n` LEDs, with nothing on its ports (DESIGN CHOICE, log entry 5: unsafe for
a claim that nothing is pending after reset, which no statement makes). -/
def State.resetFor (n : Nat) : State where
  col := List.replicate n Colour.off
  buf := resetBuf n
  gbright := 255
  gmode := .tableCorrection
  offR := .three
  offG := .two
  offB := .one
  phase := .config
  cfgerr := false
  host := []
  sink := []
  rsp := []
  snk := []

/-- The machine right after reset (R30, R151; power-on is a reset). -/
def State.reset : State := State.resetFor Config.nLeds

end Sys2Proof.Machine
end

