-- ==== Sys2Proof/Machine/Gamma.lean ====
section
/-! DEFINITION. The gamma table and the gamma function (spec/41_gamma.md R83-R89). -/

namespace Sys2Proof.Machine

/-! ## GAMMA_TABLE -/

/-- The largest of 0 and the raw values at indices 1 to `k`. -/
def runningMax (f : Byte → Byte) : Nat → Nat
  | 0 => 0
  | k + 1 => max (runningMax f k) (f (BitVec.ofNat 8 (k + 1))).toNat

/-- A table with the properties (G1) to (G4) of R83, made from any raw values: entry 0 is 0, entry 255 is 255, and the
others never fall. Raw values that have the properties already are left as they are. DESIGN CHOICE (log entry 2):
safe. -/
def tableOf (f : Byte → Byte) (i : Byte) : Byte :=
  if i = 255 then 255 else BitVec.ofNat 8 (runningMax f i.toNat)

/-- `T` (R9, R83): the table of the built block, any table that has (G1) to (G4). -/
def gammaTable : Byte → Byte := tableOf Config.gammaRaw

/-- The 256 entries of the default instance, row by row (R84). Its interior values are
`[from general knowledge, not in source]` (93_implementation_defined.md K1): no meaning uses it, and a claim about it
names it. PRESUMED (log entry 16): safe. -/
def defaultTableRows : List (List Nat) :=
  [[0, 0, 0, 0, 0, 0, 0, 0, 0, 0, 0, 0, 0, 0, 0, 0],
   [0, 0, 0, 0, 0, 0, 0, 0, 0, 0, 0, 0, 1, 1, 1, 1],
   [1, 1, 1, 1, 1, 1, 1, 1, 1, 2, 2, 2, 2, 2, 2, 2],
   [2, 3, 3, 3, 3, 3, 3, 3, 4, 4, 4, 4, 4, 5, 5, 5],
   [5, 6, 6, 6, 6, 7, 7, 7, 7, 8, 8, 8, 9, 9, 9, 10],
   [10, 10, 11, 11, 11, 12, 12, 13, 13, 13, 14, 14, 15, 15, 16, 16],
   [17, 17, 18, 18, 19, 19, 20, 20, 21, 21, 22, 22, 23, 24, 24, 25],
   [25, 26, 27, 27, 28, 29, 29, 30, 31, 32, 32, 33, 34, 35, 35, 36]] ++
  [[37, 38, 39, 39, 40, 41, 42, 43, 44, 45, 46, 47, 48, 49, 50, 50],
   [51, 52, 54, 55, 56, 57, 58, 59, 60, 61, 62, 63, 64, 66, 67, 68],
   [69, 70, 72, 73, 74, 75, 77, 78, 79, 81, 82, 83, 85, 86, 87, 89],
   [90, 92, 93, 95, 96, 98, 99, 101, 102, 104, 105, 107, 109, 110, 112, 114],
   [115, 117, 119, 120, 122, 124, 126, 127, 129, 131, 133, 135, 137, 138, 140, 142],
   [144, 146, 148, 150, 152, 154, 156, 158, 160, 162, 164, 167, 169, 171, 173, 175],
   [177, 180, 182, 184, 186, 189, 191, 193, 196, 198, 200, 203, 205, 208, 210, 213],
   [215, 218, 220, 223, 225, 228, 231, 233, 236, 239, 241, 244, 247, 249, 252, 255]]

/-- The default instance of `T` (R84): entry `16 * row + column`. -/
def defaultTable (i : Byte) : Byte :=
  BitVec.ofNat 8 ((defaultTableRows.getD (i.toNat / 16) []).getD (i.toNat % 16) 0)

/-! ## The gamma function -/

/-- What a built block corrects colours with: its table and the function behind the GX port (R9, R11). -/
structure Corrector where
  table : Byte → Byte
  custom : Colour → Colour

/-- The built block's own table and function. -/
def corrector : Corrector := ⟨gammaTable, Config.gCustom⟩

/-- `gammaTable(c)` (R85): the table applied to R, G and B; L passes through. -/
def Corrector.applyTable (k : Corrector) (c : Colour) : Colour := ⟨k.table c.r, k.table c.g, k.table c.b, c.l⟩

/-- `corrected(GMODE, w)` (R86-R88): the Colour whose R, G and B are written to the record. Its L is not used. -/
def Corrector.corrected (k : Corrector) (mode : GMode) (w : Colour) : Colour :=
  match mode with
  | .noCorrection => w
  | .tableCorrection => k.applyTable w
  | .customCorrection => k.custom w

end Sys2Proof.Machine
end

