-- ==== Sys2Proof/Machine/Ops.lean ====
section
/-! DEFINITION. The named operations over the state: BUF by the byte, the per-LED re-encode
(spec/43_frame_encoder.md R101, R102), responses (spec/30_encoding.md R59) and errors (spec/60_exceptions.md R144), the
sink's offer (R123) and reset (spec/70_reset_and_hazards.md R151). -/

namespace Sys2Proof.Machine

/-- The outcome of a step of this machine. -/
abbrev Result := Host.Outcome State Fault Refusal

/-! ## BUF by the byte -/

/-- What an index of BUF holds when it is not listed: 0, the initial fill of the buffer (R30; 90_conflicts.md C1). -/
def Memory.unlisted : Byte := 0

/-- `BUF[a]`, `MemRead(a, 1)` (00_scope.md, Notation). -/
def Memory.read : Memory → Nat → Byte
  | [], _ => Memory.unlisted
  | (x, v) :: rest, a => if x = a then v else Memory.read rest a

/-- Put a cell before the first cell of a higher index. -/
def Memory.insert (a : Nat) (v : Byte) : Memory → Memory
  | [] => [(a, v)]
  | (x, u) :: rest => if a < x then (a, v) :: (x, u) :: rest else (x, u) :: Memory.insert a v rest

/-- `BUF[a] <- v`, `MemWrite(a, 1, v)`: the cell is replaced; writing the unlisted value leaves no cell. -/
def Memory.write (m : Memory) (a : Nat) (v : Byte) : Memory :=
  let others := m.filter (fun cell => cell.1 != a)
  if v = Memory.unlisted then others else Memory.insert a v others

/-- The canonical form: indices rise strictly, and no cell holds the unlisted value. -/
abbrev Memory.wf (m : Memory) : Prop :=
  (m.map Prod.fst).Pairwise (· < ·) ∧ ∀ cell ∈ m, cell.2 ≠ Memory.unlisted

/-- `MemRead(a, n)`: `n` bytes from index `a`, lowest index first. -/
def Memory.readBytes (m : Memory) (a n : Nat) : List Byte := (List.range n).map (fun k => m.read (a + k))

/-! ## The frame's layout -/

/-- `FOOTER = ceil((N_LEDS - 1) / 16) + 2`, in the integer form of R8. -/
def footerLen (n : Nat) : Nat := (n + 14) / 16 + 2

/-- `LEN = 4 + 4 * N_LEDS + FOOTER` (R8). -/
def frameLen (n : Nat) : Nat := 4 + 4 * n + footerLen n

/-- `base(i) = 4 + 4 * i`: where the record of LED `i` starts (R35). -/
def base (i : Nat) : Nat := 4 + 4 * i

/-- `N_LEDS` of the block this state is a state of: the length of its colour array, which no command changes (R13).
DEDUCED (log entry 1): safe. -/
def State.nLeds (s : State) : Nat := s.col.length

/-- The frame: all LEN bytes of BUF in index order (R33, R46). -/
def State.frame (s : State) : List Byte := s.buf.readBytes 0 (frameLen s.nLeds)

/-- The four bytes of LED `i`'s record (R34, R35). -/
def State.record (s : State) (i : Nat) : List Byte := s.buf.readBytes (base i) 4

/-- `COL[i]`; every use has `i < N_LEDS`. -/
def State.colour (s : State) (i : Nat) : Colour := s.col.getD i Colour.off

/-! ## The per-LED re-encode -/

/-- The effective L (R101 step 2): the luminosity scaled by the global brightness. -/
def effL (gb l : Byte) : Byte :=
  if gb = 255 then l else BitVec.ofNat 8 (gb.toNat * l.toNat / 255)

/-- The working colour (R101 step 2): the stored R, G, B with the effective L. -/
def working (gb : Byte) (c : Colour) : Colour := ⟨c.r, c.g, c.b, effL gb c.l⟩

/-- The brightness byte (R101 step 4): three ones, then the top five bits of the effective L. -/
def brightnessByte (effective : Byte) : Byte := (effective >>> 3) ||| 0xE0

/-- `encode` (R102): the four bytes of a record as a pure function of the stored colour, the global brightness, the
gamma mode and the offsets, by the block's table and custom function. With the offsets a permutation of 1, 2, 3 (R29)
each of the last three bytes is set exactly once (R34), so the zeros they start from do not show. DESIGN CHOICE (log
entry 11): safe, offsets that are not distinct are never reached. -/
def encodeRecord (k : Corrector) (c : Colour) (gb : Byte) (mode : GMode) (offR offG offB : Slot) : List Byte :=
  let w := working gb c
  let x := k.corrected mode w
  ((([brightnessByte w.l, 0, 0, 0].set offR.index x.r).set offG.index x.g).set offB.index x.b)

/-- `render(i)` (R101): the record of LED `i` written from its stored colour, step by step as the rule has it. -/
def render (s : State) (i : Nat) : State :=
  let w := working s.gbright (s.colour i)
  let x := corrector.corrected s.gmode w
  let m := s.buf.write (base i) (brightnessByte w.l)
  let m := m.write (base i + s.offR.index) x.r
  let m := m.write (base i + s.offG.index) x.g
  let m := m.write (base i + s.offB.index) x.b
  { s with buf := m }

/-- `for i = 0 .. N_LEDS-1: render(i)`. -/
def renderAll (s : State) : State := (List.range s.nLeds).foldl render s

/-- `COL[i] <- c`, then `render(i)` (R106). -/
def store (s : State) (i : Nat) (c : Colour) : State := render { s with col := s.col.set i c } i

/-- `COL[j] <- e[0]; render(j); COL[j+1] <- e[1]; ...`: the loop of SET_COLOURS and CLEAR (R108, R118). -/
def storeFrom (s : State) (j : Nat) : List Colour → State
  | [] => s
  | c :: cs => storeFrom (store s j c) (j + 1) cs

/-! ## Responses and errors -/

/-- The status codes (R60). -/
def Status.code : Status → Byte
  | .ok => 0x00
  | .errOrderMissing => 0x01
  | .errOrderMalformed => 0x02
  | .errSendSink => 0x03
  | .errSendShort => 0x04
  | .errPhase => 0x05
  | .errIllegal => 0x06
  | .errConfig => 0x07

/-- A response packet's bytes (R59): the status byte, then the payload. -/
def Response.bytes (r : Response) : List Byte := r.status.code :: r.payload

/-- One response put on RSP (R59). -/
def State.respond (s : State) (status : Status) (payload : List Byte) : State :=
  { s with rsp := s.rsp ++ [⟨status, payload⟩] }

/-- `respond(OK, payload)`: the end of a command that did what its rule says (R60, R61). -/
def reply (payload : List Byte) (s : State) : Result := .next (s.respond .ok payload)

/-- What an error does to the machine, in place of a trap's entry (R144): the response carries its status with an empty
payload (R135), and nothing is saved and no mode changes. There is no return from it: the next command runs by the same
rules (R145). -/
def raise (status : Status) (s : State) : Result := .next (s.respond status [])

/-! ## The sink -/

/-- `SinkOffer(MemRead(0, LEN))` (R123): the whole buffer offered in one transaction, and the sink's answer; none when
the sink gives no answer. -/
def sinkOffer (s : State) : Option (SinkAnswer × State) :=
  match s.sink with
  | [] => none
  | answer :: later => some (answer, { s with sink := later, snk := s.snk ++ [⟨s.frame, answer⟩] })

/-! ## Reset -/

/-- The RST event (R151): every piece of the block's state takes its reset value, and no response is given. The LED
count is the block's own; the streams of the ports are not the block's state and stay (DESIGN CHOICE, log entry 5:
safe). -/
def hostReset (s : State) : State :=
  { State.resetFor s.nLeds with host := s.host, sink := s.sink, rsp := s.rsp, snk := s.snk }

end Sys2Proof.Machine
end

