-- ==== Sys2Proof/Machine/Operands.lean ====
section
/-! DEFINITION. What the operands stand for: positions (spec/20_memory.md R32), ratios (spec/40_colour_model.md R77),
gamma modes (spec/10_state.md R16) and order strings (spec/42_channel_order.md R93-R95). -/

namespace Sys2Proof.Machine

/-! ## Positions -/

/-- The LED a position names: `sext_32(pos)` when it lies in `0 .. N_LEDS-1`, otherwise none (R32, R53). -/
def posIndex (n : Nat) (pos : BitVec 32) : Option Nat :=
  if 0 ≤ pos.toInt ∧ pos.toInt < (n : Int) then some pos.toInt.toNat else none

/-! ## Ratios -/

/-- The ratio operand `q = sext_16(...)`; it stands for the rational `q / 256` (R53, R77). -/
def ratio (q : BitVec 16) : Int := q.toInt

/-! ## Gamma modes -/

/-- The 2-bit coding of GMODE (R16), as CFG_GAMMA's operand byte has it (R90). -/
def GMode.code : GMode → Byte
  | .noCorrection => 0
  | .tableCorrection => 1
  | .customCorrection => 2

/-- The mode an operand byte names; none for the reserved values 3 to 255 (R53, R57). -/
def gmodeOf (mode : Byte) : Option GMode :=
  if mode = 0 then some .noCorrection
  else if mode = 1 then some .tableCorrection
  else if mode = 2 then some .customCorrection
  else none

/-! ## Order strings -/

/-- The letter r: 0x72 or 0x52 (R93). -/
def isR (ch : Byte) : Bool := ch == 0x72 || ch == 0x52

/-- The letter g: 0x67 or 0x47 (R93). -/
def isG (ch : Byte) : Bool := ch == 0x67 || ch == 0x47

/-- The letter b: 0x62 or 0x42 (R93). -/
def isB (ch : Byte) : Bool := ch == 0x62 || ch == 0x42

/-- The verdict of R94; a valid string carries the offsets of R95. -/
inductive OrderVerdict where
  | missing
  | malformed
  | valid (offR offG offB : Slot)
deriving DecidableEq, Repr

/-- `idx + 1` for an index of a string of length 3 (R95). -/
def slotAfter : Nat → Slot
  | 0 => .one
  | 1 => .two
  | _ => .three

/-- `validate(str)` (R94): check (a), every letter present, comes before check (b), length 3; a string that passes both
gives each letter's 0-based index plus one (R95). -/
def validate (str : List Byte) : OrderVerdict :=
  if str.any isR && str.any isG && str.any isB then
    if str.length = 3 then
      .valid (slotAfter (str.findIdx isR)) (slotAfter (str.findIdx isG)) (slotAfter (str.findIdx isB))
    else .malformed
  else .missing

end Sys2Proof.Machine
end

