-- ==== Sys2Proof/Machine/ColourModel.lean ====
section
/-! DEFINITION. The colour model (spec/40_colour_model.md): the predefined Colours R74, the blend law R76, R77 and
BLEND R78. -/

namespace Sys2Proof.Machine

/-! ## Predefined Colours (R74); Off is `Colour.off` -/

def colourRed : Colour := ⟨255, 0, 0, 255⟩
def colourGreen : Colour := ⟨0, 255, 0, 255⟩
def colourBlue : Colour := ⟨0, 0, 255, 255⟩
def colourWhite : Colour := ⟨255, 255, 255, 255⟩

/-! ## Blending -/

/-- `blend8(o, t, q)` (R77) over the integers: the whole sum is floored. -/
def blendInt (o t q : Int) : Int :=
  if q ≤ 0 then o else if 256 ≤ q then t else o + (t - o) * q / 256

/-- `blend8` on bytes: the result lies in 0..255 (R79). -/
def blend8 (o t : Byte) (q : BitVec 16) : Byte :=
  BitVec.ofInt 8 (blendInt o.toNat t.toNat (ratio q))

/-- `Blend`, channel by channel, L included (R76). -/
def blend (o t : Colour) (q : BitVec 16) : Colour :=
  ⟨blend8 o.r t.r q, blend8 o.g t.g q, blend8 o.b t.b q, blend8 o.l t.l q⟩

/-- BLEND (R78): valid in both phases; it writes no state. -/
def execBlend (o t : Colour) (q : BitVec 16) (s : State) : Result :=
  reply (blend o t q).bytes s

end Sys2Proof.Machine
end

