-- ==== Sys2Proof/Machine/Flags.lean ====
section
/-! DEFINITION. The block has no condition codes (spec/10_state.md R23). What stands in their place: the sticky bit
CFGERR (R20), and PHASE, which every command but BLEND tests (R19, spec/60_exceptions.md R141). -/

namespace Sys2Proof.Machine

/-- A failed CFG_ORDER sets CFGERR; nothing clears it but reset (R20). -/
def setCfgErr (s : State) : State := { s with cfgerr := true }

/-- The phase check (R141, R143): in the command's phase it goes on; in the other it is answered ERR_PHASE and nothing
changes. -/
def inPhase (p : Phase) (s : State) (go : Result) : Result :=
  if s.phase = p then go else raise .errPhase s

end Sys2Proof.Machine
end

