-- ==== Sys2Proof/Machine/Configuration.lean ====
section
/-! DEFINITION. The construction group: CFG_ORDER (spec/42_channel_order.md R96), CFG_GAMMA (spec/41_gamma.md R90),
INIT (spec/43_frame_encoder.md R104). -/

namespace Sys2Proof.Machine

/-- CFG_ORDER (R96). A failed validation sets CFGERR and leaves the offsets and BUF as they are. -/
def execCfgOrder (str : List Byte) (s : State) : Result :=
  inPhase .config s <|
    match validate str with
    | .missing => raise .errOrderMissing (setCfgErr s)
    | .malformed => raise .errOrderMalformed (setCfgErr s)
    | .valid r g b => reply [] (renderAll { s with offR := r, offG := g, offB := b })

/-- CFG_GAMMA (R90). A reserved mode is the decoder's ERR_ILLEGAL, which comes before the phase check (R57, R143); the
decoder gives no such command, so this arm answers only terms that are not well formed. DESIGN CHOICE (log entry 9):
safe. -/
def execCfgGamma (mode : Byte) (s : State) : Result :=
  match gmodeOf mode with
  | none => raise .errIllegal s
  | some g => inPhase .config s <| reply [] (renderAll { s with gmode := g })

/-- INIT (R104): refused with ERR_CONFIG when an earlier CFG_ORDER failed (R137). -/
def execInit (s : State) : Result :=
  inPhase .config s <|
    if s.cfgerr then raise .errConfig s else reply [] { s with phase := .run }

end Sys2Proof.Machine
end

