-- ==== Sys2Proof/Machine/Controller.lean ====
section
/-! DEFINITION. The controller group (spec/43_frame_encoder.md): the colour commands R106-R112, the brightness commands
R114-R116, CLEAR R118 and UPDATE R120. -/

namespace Sys2Proof.Machine

/-- SET_COLOUR (R106): a position that names no LED is answered OK and changes nothing (R107, R139). -/
def execSetColour (pos : BitVec 32) (c : Colour) (s : State) : Result :=
  inPhase .run s <|
    match posIndex s.nLeds pos with
    | some i => reply [] (store s i c)
    | none => reply [] s

/-- SET_COLOURS (R108): entries from index `N_LEDS` on have no effect (R109). -/
def execSetColours (e : List Colour) (s : State) : Result :=
  inPhase .run s <| reply [] (storeFrom s 0 (e.take s.nLeds))

/-- GET_COLOUR (R110): the stored colour, or (0, 0, 0, 0) for a position that names no LED. -/
def execGetColour (pos : BitVec 32) (s : State) : Result :=
  inPhase .run s <|
    match posIndex s.nLeds pos with
    | some i => reply (s.colour i).bytes s
    | none => reply (⟨0, 0, 0, 0⟩ : Colour).bytes s

/-- SNAPSHOT (R112): every stored colour, LED 0 first. -/
def execSnapshot (s : State) : Result :=
  inPhase .run s <| reply (coloursBytes s.col) s

/-- SET_BRIGHTNESS (R114): every record is written again. -/
def execSetBrightness (v : Byte) (s : State) : Result :=
  inPhase .run s <| reply [] (renderAll { s with gbright := v })

/-- GET_BRIGHTNESS (R116). -/
def execGetBrightness (s : State) : Result :=
  inPhase .run s <| reply [s.gbright] s

/-- CLEAR (R118): every LED Off; nothing is offered to the sink. -/
def execClear (s : State) : Result :=
  inPhase .run s <| reply [] (storeFrom s 0 (List.replicate s.nLeds Colour.off))

/-- UPDATE (R120): one offer; the sink's error is tested before its count. With no answer UPDATE does not finish
(R160). -/
def execUpdate (s : State) : Result :=
  inPhase .run s <|
    match sinkOffer s with
    | none => .fault .sinkSilent
    | some (answer, s') =>
      if answer.err then raise .errSendSink s'
      else if answer.acc ≠ frameLen s.nLeds then raise .errSendShort s'
      else reply [] s'

end Sys2Proof.Machine
end

