-- ==== Sys2Proof/Machine/Dispatch.lean ====
section
/-! DEFINITION. One arm per command (spec/30_encoding.md R54). -/

namespace Sys2Proof.Machine

/-- One whole command (00_scope.md R12): the state with the command's effect and its response. -/
def exec (i : Instr) (s : State) : Host.Outcome State Fault Refusal :=
  match i with
  | .cfgOrder str => Sys2Proof.Machine.execCfgOrder str s
  | .cfgGamma mode => Sys2Proof.Machine.execCfgGamma mode s
  | .init => Sys2Proof.Machine.execInit s
  | .setColour pos c => Sys2Proof.Machine.execSetColour pos c s
  | .setColours e => Sys2Proof.Machine.execSetColours e s
  | .getColour pos => Sys2Proof.Machine.execGetColour pos s
  | .snapshot => Sys2Proof.Machine.execSnapshot s
  | .setBrightness v => Sys2Proof.Machine.execSetBrightness v s
  | .getBrightness => Sys2Proof.Machine.execGetBrightness s
  | .clear => Sys2Proof.Machine.execClear s
  | .update => Sys2Proof.Machine.execUpdate s
  | .blend o t q => Sys2Proof.Machine.execBlend o t q s

end Sys2Proof.Machine
end

