-- ==== Sys2Proof/Machine/Port.lean ====
section
/-! DEFINITION. The CMD port: taking what the host offers, the answer to an illegal packet
(spec/60_exceptions.md R140), and placing a packet at the port. -/

namespace Sys2Proof.Machine

/-- The state with the offer at the head of the host's list taken. -/
def takeOffer (rest : List HostEvent) (s : State) : State := { s with host := rest }

/-- An illegal packet, whatever the reason, is answered ERR_ILLEGAL and changes nothing (R57, R140). -/
def answerIllegal (s : State) : Result := raise .errIllegal s

/-- `s` with a packet as the next thing the host offers. -/
def offerPacket (p : Packet) (s : State) : State := { s with host := .packet p :: s.host }

end Sys2Proof.Machine
end

