-- ==== Sys2Proof/Machine/Step.lean ====
section
/-! DEFINITION. One step (spec/00_scope.md R12): one packet or one reset taken from the host and carried out whole. -/

namespace Sys2Proof.Machine

/-- One step. Commands are taken one at a time in the order they arrive (R43); a reset is a step of its own (R151); with
nothing offered the block holds its state (R148; DESIGN CHOICE, log entry 5: safe). A reset during UPDATE and two
commands at once have no step (DEDUCED, log entry 15: unsafe for a host that does either). -/
def step (s : State) : Host.Outcome State Fault Refusal :=
  match s.host with
  | [] => .next s
  | .reset :: rest => .next (hostReset (takeOffer rest s))
  | .packet p :: rest =>
    match decode p with
    | .ok i => exec i (takeOffer rest s)
    | .error _ => answerIllegal (takeOffer rest s)

/-- `s` with the packet of a table word as the next thing the host offers. -/
def State.withFetchWord (s : State) (nbits w : Nat) : State := offerPacket (tablePacket nbits w) s

end Sys2Proof.Machine
end

