-- ==== Sys2Proof/Machine/HostText.lean ====
section
/-! DEFINITION. The text forms of a Colour (spec/44_host_text_forms.md R126-R132): functions of the host's software,
outside the block. No step calls them. -/

namespace Sys2Proof.Machine

/-! ## Hexadecimal text -/

/-- The value of a hexadecimal digit, either case (R127). -/
def hexDigit (ch : Char) : Option Nat :=
  let v := ch.toNat
  if 48 ≤ v ∧ v ≤ 57 then some (v - 48)
  else if 65 ≤ v ∧ v ≤ 70 then some (v - 55)
  else if 97 ≤ v ∧ v ≤ 102 then some (v - 87)
  else none

/-- Two digits, the first more significant (R127). -/
def hexPair (hi lo : Char) : Option Byte :=
  match hexDigit hi, hexDigit lo with
  | some h, some l => some (BitVec.ofNat 8 (16 * h + l))
  | _, _ => none

/-- The Colour of four digit pairs; none if a pair is no pair of digits. -/
def colourOfPairs (r g b l : Option Byte) : Option Colour :=
  match r, g, b, l with
  | some r, some g, some b, some l => some ⟨r, g, b, l⟩
  | _, _, _, _ => none

/-- The two hex text forms: `#RRGGBB`, L = 255, and `#RRGGBBLL` (R127). -/
def hexForm : List Char → Option Colour
  | ['#', r1, r0, g1, g0, b1, b0] =>
    colourOfPairs (hexPair r1 r0) (hexPair g1 g0) (hexPair b1 b0) (some 255)
  | ['#', r1, r0, g1, g0, b1, b0, l1, l0] =>
    colourOfPairs (hexPair r1 r0) (hexPair g1 g0) (hexPair b1 b0) (hexPair l1 l0)
  | _ => none

/-- `HexParse(text)` (R128): it never fails. A text of length 7 or 9 of another form gives an unspecified Colour
(R130). -/
def hexParse (text : List Char) : Colour :=
  match hexForm text with
  | some c => c
  | none =>
    if text.length ≠ 7 ∧ text.length ≠ 9 then ⟨0, 0, 0, 255⟩ else Config.hexMalformed text

/-! ## The formatted description -/

/-- A digit of the description's hexadecimal form. -/
def hexChar (upper : Bool) (v : Nat) : Char :=
  if v < 10 then Char.ofNat (48 + v) else if upper then Char.ofNat (55 + v) else Char.ofNat (87 + v)

/-- The two hexadecimal digits of a byte. -/
def hexChars (upper : Bool) (v : Byte) : List Char := [hexChar upper (v.toNat / 16), hexChar upper (v.toNat % 16)]

/-- A byte in decimal, without leading zeros. R131 and 91_not_in_source.md N13 leave open whether the description pads
its decimal fields. DESIGN CHOICE (log entry 13): unsafe for a claim about a description that pads them. -/
def decimalChars (v : Byte) : List Char :=
  let d := fun k => Char.ofNat (48 + k)
  let n := v.toNat
  if n < 10 then [d n] else if n < 100 then [d (n / 10), d (n % 10)] else [d (n / 100), d (n / 10 % 10), d (n % 10)]

/-- What the formatted description contains (R131): the four fields in decimal, and the `#RRGGBBLL` form. Its wording,
order and separators are not specified and are not modelled. DESIGN CHOICE (log entry 13): safe; the form of its decimal
fields, at `decimalChars`, is the model's too and unsafe. -/
structure Description where
  r : List Char
  g : List Char
  b : List Char
  l : List Char
  hex : List Char
deriving DecidableEq, Repr

/-- The `#RRGGBBLL` form of a Colour (R127). -/
def hexText (upper : Bool) (c : Colour) : List Char :=
  '#' :: (hexChars upper c.r ++ hexChars upper c.g ++ hexChars upper c.b ++ hexChars upper c.l)

/-- The formatted description's contents (R131); the case of its hexadecimal digits is open, and its decimal fields are
unpadded by the model's choice (log entry 13). -/
def describe (c : Colour) : Description :=
  ⟨decimalChars c.r, decimalChars c.g, decimalChars c.b, decimalChars c.l, hexText Config.hexUpper c⟩

end Sys2Proof.Machine
end

