-- ==== Sys2Proof/Machine/Assembler.lean ====
section
/-! DEFINITION. The assembler's syntax (spec/30_encoding.md R64-R66): one line of text to one packet, on the host's side
of the CMD port. No step calls it. What R64 and R65 leave open of the text is DESIGN CHOICE (log entry 14): unsafe for a
claim about one of the texts it names. -/

namespace Sys2Proof.Machine

/-! ## Text helpers -/

def isBlank (ch : Char) : Bool := ch == ' ' || ch == '\t'

def trimLeft (text : List Char) : List Char := text.dropWhile isBlank

def trim (text : List Char) : List Char := (trimLeft (trimLeft text).reverse).reverse

/-- A letter A to Z in lower case; mnemonics are case-insensitive (R64). -/
def lower (ch : Char) : Char := if 65 ≤ ch.toNat ∧ ch.toNat ≤ 90 then Char.ofNat (ch.toNat + 32) else ch

/-- The line up to its comment (R64); a `;` between quotes belongs to the string. -/
def dropComment : Bool → List Char → List Char
  | _, [] => []
  | quoted, ch :: rest =>
    if ch == '"' then ch :: dropComment (!quoted) rest
    else if ch == ';' && !quoted then []
    else ch :: dropComment quoted rest

/-- The operands: the text split at its commas, but for commas between parentheses or quotes (R64, R65). `cur` is the
operand read so far, last character first. -/
def splitOperands (depth : Nat) (quoted : Bool) (cur : List Char) : List Char → List (List Char)
  | [] => [trim cur.reverse]
  | ch :: rest =>
    if ch == '"' then splitOperands depth (!quoted) (ch :: cur) rest
    else if quoted then splitOperands depth quoted (ch :: cur) rest
    else if ch == ',' && depth == 0 then trim cur.reverse :: splitOperands 0 false [] rest
    else if ch == '(' then splitOperands (depth + 1) quoted (ch :: cur) rest
    else if ch == ')' then splitOperands (depth - 1) quoted (ch :: cur) rest
    else splitOperands depth quoted (ch :: cur) rest

/-- The operand list of a mnemonic: none when nothing follows it. -/
def operandList (text : List Char) : List (List Char) :=
  match trim text with
  | [] => []
  | rest => splitOperands 0 false [] rest

/-! ## Operand literals (R65) -/

def decimalDigit (ch : Char) : Option Nat :=
  if 48 ≤ ch.toNat ∧ ch.toNat ≤ 57 then some (ch.toNat - 48) else none

/-- Decimal digits continuing a number. -/
def decimalFrom : Nat → List Char → Option Nat
  | acc, [] => some acc
  | acc, ch :: rest =>
    match decimalDigit ch with
    | some d => decimalFrom (10 * acc + d) rest
    | none => none

/-- A decimal number of one digit or more, without a sign. R65 does not say whether leading zeros or a plus sign are well
formed: leading zeros are accepted, as decimal, and a plus sign is refused. DESIGN CHOICE (log entry 14): unsafe for a
claim about such a literal. -/
def decimalNat : List Char → Option Nat
  | [] => none
  | text => decimalFrom 0 text

/-- A decimal integer, with an optional minus sign directly before its digits. R65 does not say which signs are well
formed: `-0` is accepted and is 0, a plus sign is refused. DESIGN CHOICE (log entry 14): unsafe for a claim about such a
literal. -/
def decimalInt : List Char → Option Int
  | '-' :: text => (decimalNat text).map (fun n => -(n : Int))
  | text => (decimalNat text).map (fun n => (n : Int))

/-- `<pos>`: -2147483648 .. 2147483647. -/
def posLiteral (text : List Char) : Option (BitVec 32) :=
  match decimalInt text with
  | some v => if -2147483648 ≤ v ∧ v ≤ 2147483647 then some (BitVec.ofInt 32 v) else none
  | none => none

/-- `<value>`: 0..255. A minus sign is refused, that of `-0` too. DESIGN CHOICE (log entry 14). -/
def valueLiteral (text : List Char) : Option Byte :=
  match decimalNat text with
  | some v => if v ≤ 255 then some (BitVec.ofNat 8 v) else none
  | none => none

/-- `(r, g, b, l)`: the text after the opening parenthesis. -/
def tupleLiteral (text : List Char) : Option Colour :=
  match text.reverse with
  | ')' :: inner =>
    match splitOperands 0 false [] inner.reverse with
    | [r, g, b, l] => colourOfPairs (valueLiteral r) (valueLiteral g) (valueLiteral b) (valueLiteral l)
    | _ => none
  | _ => none

/-- `<colour>`: a hex form, four decimal integers, or a predefined name (R74). -/
def colourLiteral (text : List Char) : Option Colour :=
  match text with
  | '#' :: _ => hexForm text
  | '(' :: rest => tupleLiteral rest
  | ['O', 'f', 'f'] => some Colour.off
  | ['R', 'e', 'd'] => some colourRed
  | ['G', 'r', 'e', 'e', 'n'] => some colourGreen
  | ['B', 'l', 'u', 'e'] => some colourBlue
  | ['W', 'h', 'i', 't', 'e'] => some colourWhite
  | _ => none

/-- Zero or more colours. -/
def colourLiterals : List (List Char) → Option (List Colour)
  | [] => some []
  | text :: rest =>
    match colourLiteral text, colourLiterals rest with
    | some c, some cs => some (c :: cs)
    | _, _ => none

/-- `<ratio>`: `<q>/256` with q in -32768 .. 32767; no blank may stand inside it. DESIGN CHOICE (log entry 14). -/
def ratioLiteral (text : List Char) : Option (BitVec 16) :=
  match text.reverse with
  | '6' :: '5' :: '2' :: '/' :: q =>
    match decimalInt q.reverse with
    | some v => if -32768 ≤ v ∧ v ≤ 32767 then some (BitVec.ofInt 16 v) else none
    | none => none
  | _ => none

/-- Characters as bytes, one each; a character with no one-byte code gives none. -/
def charBytes : List Char → Option (List Byte)
  | [] => some []
  | ch :: rest =>
    if ch.toNat ≤ 255 then (charBytes rest).map (fun bs => BitVec.ofNat 8 ch.toNat :: bs) else none

/-- `"<string>"`: the characters between the quotes. -/
def stringLiteral : List Char → Option (List Byte)
  | '"' :: rest =>
    match rest.reverse with
    | '"' :: inner => if inner.contains '"' then none else charBytes inner.reverse
    | _ => none
  | _ => none

/-- The gamma mode words of `cfg.gamma` (R64). -/
def modeLiteral : List Char → Option Byte
  | ['n', 'o', 'n', 'e'] => some 0
  | ['t', 'a', 'b', 'l', 'e'] => some 1
  | ['c', 'u', 's', 't', 'o', 'm'] => some 2
  | _ => none

/-! ## Lines (R64) -/

/-- The command of a mnemonic, in lower case, and its operands; none for a malformed line. -/
def assembleOperands (mnemonic : List Char) (ops : List (List Char)) : Option Instr :=
  match mnemonic, ops with
  | ['c', 'f', 'g', '.', 'o', 'r', 'd', 'e', 'r'], [str] => (stringLiteral str).map .cfgOrder
  | ['c', 'f', 'g', '.', 'g', 'a', 'm', 'm', 'a'], [mode] => (modeLiteral mode).map .cfgGamma
  | ['i', 'n', 'i', 't'], [] => some .init
  | ['s', 'e', 't', 'c'], [pos, c] =>
    match posLiteral pos, colourLiteral c with
    | some pos, some c => some (.setColour pos c)
    | _, _ => none
  | ['s', 'e', 't', 'c', 's'], cs => (colourLiterals cs).map .setColours
  | ['g', 'e', 't', 'c'], [pos] => (posLiteral pos).map .getColour
  | ['s', 'n', 'a', 'p'], [] => some .snapshot
  | ['s', 'e', 't', 'g', 'b'], [v] => (valueLiteral v).map .setBrightness
  | ['g', 'e', 't', 'g', 'b'], [] => some .getBrightness
  | ['c', 'l', 'e', 'a', 'r'], [] => some .clear
  | ['u', 'p', 'd', 'a', 't', 'e'], [] => some .update
  | ['b', 'l', 'e', 'n', 'd'], [o, t, q] =>
    match colourLiteral o, colourLiteral t, ratioLiteral q with
    | some o, some t, some q => some (.blend o t q)
    | _, _, _ => none
  | _, _ => none

/-- The command of one line: comment dropped, mnemonic in any case, operands separated by commas (R64). -/
def assembleLine (line : List Char) : Option Instr :=
  let text := trim (dropComment false line)
  assembleOperands ((text.takeWhile (fun ch => !isBlank ch)).map lower)
    (operandList (text.dropWhile (fun ch => !isBlank ch)))

/-- The packet of one line: every line assembles to exactly one (R66). -/
def assemble (line : List Char) : Option Packet := (assembleLine line).map encode

end Sys2Proof.Machine
end

