-- ==== Sys2Proof/Safety.lean ====
section
/-! DEFINITION. What claims about the machine are stated in: what a command leaves alone, the invariants of
spec/10_state.md R27-R29 and the lengths of R13, and which packets and phases the spec turns away (R57, R19). -/

namespace Sys2Proof.Machine

/-! ## What is left alone -/

/-- The nine pieces of the block's own state (R13-R20) are the same. -/
def sameBlock (s t : State) : Prop :=
  t.col = s.col ∧ t.buf = s.buf ∧ t.gbright = s.gbright ∧ t.gmode = s.gmode ∧
    t.offR = s.offR ∧ t.offG = s.offG ∧ t.offB = s.offB ∧ t.phase = s.phase ∧ t.cfgerr = s.cfgerr

/-- The block's state can't be told apart by reading it: the same colours and control fields, and the same byte at every
index of BUF. -/
def looksSame (s t : State) : Prop :=
  t.col = s.col ∧ (∀ a, t.buf.read a = s.buf.read a) ∧ t.gbright = s.gbright ∧ t.gmode = s.gmode ∧
    t.offR = s.offR ∧ t.offG = s.offG ∧ t.offB = s.offB ∧ t.phase = s.phase ∧ t.cfgerr = s.cfgerr

/-- The seven control fields (R24) are the same. -/
def sameControl (s t : State) : Prop :=
  t.gbright = s.gbright ∧ t.gmode = s.gmode ∧ t.offR = s.offR ∧ t.offG = s.offG ∧ t.offB = s.offB ∧
    t.phase = s.phase ∧ t.cfgerr = s.cfgerr

/-- Nothing passes the sink's port, and the host's list of offers is as it was. -/
def sameInputs (s t : State) : Prop := t.host = s.host ∧ t.sink = s.sink ∧ t.snk = s.snk

/-- Exactly one response is given, with this status and payload (R59). -/
def responds (s t : State) (status : Status) (payload : List Byte) : Prop :=
  t.rsp = s.rsp ++ [⟨status, payload⟩]

/-- Every byte of BUF outside the indices `lo <= a < hi` reads as before. -/
def sameOutside (s t : State) (lo hi : Nat) : Prop :=
  ∀ a, (a < lo ∨ hi ≤ a) → t.buf.read a = s.buf.read a

/-! ## Invariants -/

/-- The record of LED `i` that its stored colour, the control state and the gamma function give (R27). -/
def State.encoded (s : State) (i : Nat) : List Byte :=
  encodeRecord corrector (s.colour i) s.gbright s.gmode s.offR s.offG s.offB

/-- Consistency (R27). -/
def State.consistent (s : State) : Prop := ∀ i, i < s.nLeds → s.record i = s.encoded i

/-- The header and the footer read 0, and so does every index past the frame (R28, R14). -/
def State.framed (s : State) : Prop := ∀ a, (a < base 0 ∨ base s.nLeds ≤ a) → s.buf.read a = 0

/-- The top three bits of every record's first byte are ones (R28). -/
def State.marked (s : State) : Prop := ∀ i, i < s.nLeds → (s.buf.read (base i)).extractLsb' 5 3 = 0b111

/-- The offsets are distinct (R29); each is 1, 2 or 3 by its type. -/
abbrev State.offsetsOk (s : State) : Prop := s.offR ≠ s.offG ∧ s.offR ≠ s.offB ∧ s.offG ≠ s.offB

/-- The colour array has the built block's length (R13). -/
def State.sized (s : State) : Prop := s.nLeds = Config.nLeds

/-- CFGERR is 0 in RUN, since INIT goes there only without it (R104). -/
def State.clean (s : State) : Prop := s.phase = .run → s.cfgerr = false

/-- In CONFIG every stored colour is still Off and the brightness is the default (R19, R90). -/
def State.fresh (s : State) : Prop := s.phase = .config → s.gbright = 255 ∧ ∀ c ∈ s.col, c = Colour.off

/-- What holds in every reachable state. -/
structure State.Inv (s : State) : Prop where
  wf : s.buf.wf
  sized : s.sized
  offsets : s.offsetsOk
  consistent : s.consistent
  framed : s.framed
  marked : s.marked
  clean : s.clean
  fresh : s.fresh

/-! ## Runs -/

/-- Commands carried out one after another (R44), stopping where one gives no next state. -/
def execAll : List Instr → State → Result
  | [], s => .next s
  | i :: rest, s =>
    match exec i s with
    | .next t => execAll rest t
    | out => out

/-- The states of a run (R163): a reset block with any list of packets and resets to come and any answers of the sink,
and every state a step leads to from there. -/
inductive Reachable : State → Prop where
  | start (host : List HostEvent) (sink : List SinkAnswer) :
    Reachable { State.reset with host := host, sink := sink }
  | step {s t : State} : Reachable s → step s = .next t → Reachable t

/-! ## What the spec turns away -/

/-- The illegal packets of R57, all of them: the empty packet, an unknown opcode, a length the format does not allow, a
reserved gamma mode. -/
def IllegalPacket (p : Packet) : Prop :=
  p = [] ∨
  (∃ op rest, p = op :: rest ∧ ∀ c : Command, c.opcode ≠ op) ∨
  (∃ c : Command, ∃ rest, p = c.opcode :: rest ∧ c.format.lengthOk p.length = false) ∨
  (∃ mode : Byte, p = [Command.cfgGamma.opcode, mode] ∧ 2 < mode.toNat)

/-- The phases in which a command is accepted (R19, R54). -/
def phaseAccepts : Command → Phase → Bool
  | .cfgOrder, p => p == .config
  | .cfgGamma, p => p == .config
  | .init, p => p == .config
  | .setColour, p => p == .run
  | .setColours, p => p == .run
  | .getColour, p => p == .run
  | .snapshot, p => p == .run
  | .setBrightness, p => p == .run
  | .getBrightness, p => p == .run
  | .clear, p => p == .run
  | .update, p => p == .run
  | .blend, _ => true

/-- Which statuses a command can give (R142); ERR_ILLEGAL is the decoder's. -/
def mayAnswer : Command → Status → Bool
  | .cfgOrder, st => st == .ok || st == .errOrderMissing || st == .errOrderMalformed || st == .errPhase
  | .cfgGamma, st => st == .ok || st == .errPhase
  | .init, st => st == .ok || st == .errPhase || st == .errConfig
  | .setColour, st => st == .ok || st == .errPhase
  | .setColours, st => st == .ok || st == .errPhase
  | .getColour, st => st == .ok || st == .errPhase
  | .snapshot, st => st == .ok || st == .errPhase
  | .setBrightness, st => st == .ok || st == .errPhase
  | .getBrightness, st => st == .ok || st == .errPhase
  | .clear, st => st == .ok || st == .errPhase
  | .update, st => st == .ok || st == .errSendSink || st == .errSendShort || st == .errPhase
  | .blend, st => st == .ok

/-- The length of an OK response's payload in a block of `n` LEDs (R61). -/
def payloadLength (n : Nat) : Command → Nat
  | .cfgOrder => 0
  | .cfgGamma => 0
  | .init => 0
  | .setColour => 0
  | .setColours => 0
  | .getColour => 4
  | .snapshot => 4 * n
  | .setBrightness => 0
  | .getBrightness => 1
  | .clear => 0
  | .update => 0
  | .blend => 4

/-! ## Letters and ratios -/

/-- Some character of the string is one of the two codes of a letter (R94). -/
abbrev hasLetter (lower upper : Byte) (str : List Byte) : Prop := lower ∈ str ∨ upper ∈ str

/-- Whether the string has all three letters (R94, check (a)). -/
abbrev hasAllLetters (str : List Byte) : Prop :=
  hasLetter 0x72 0x52 str ∧ hasLetter 0x67 0x47 str ∧ hasLetter 0x62 0x42 str

/-- `r` is the interpolation of `o` and `t` at ratio `q / 256` (R77), as a number, so that nothing wraps. -/
def blendsTo (o t r : Byte) (q : Int) : Prop :=
  (q ≤ 0 → r = o) ∧ (256 ≤ q → r = t) ∧
    (0 < q → q < 256 → (r.toNat : Int) = o.toNat + (((t.toNat : Int) - o.toNat) * q).fdiv 256)

/-- The status a packet is answered with (R143): the first test that fails decides. A sink that gives no answer fails no
test; there UPDATE does not finish. -/
def firstFailure (s : State) (p : Packet) : Status :=
  match decode p with
  | .error _ => .errIllegal
  | .ok i =>
    if phaseAccepts i.command s.phase = false then .errPhase
    else
      match i with
      | .cfgOrder str =>
        if ¬ hasAllLetters str then .errOrderMissing else if str.length ≠ 3 then .errOrderMalformed else .ok
      | .init => if s.cfgerr then .errConfig else .ok
      | .update =>
        match s.sink with
        | [] => .ok
        | answer :: _ =>
          if answer.err then .errSendSink else if answer.acc ≠ frameLen s.nLeds then .errSendShort else .ok
      | .cfgGamma _ => .ok
      | .setColour _ _ => .ok
      | .setColours _ => .ok
      | .getColour _ => .ok
      | .snapshot => .ok
      | .setBrightness _ => .ok
      | .getBrightness => .ok
      | .clear => .ok
      | .blend _ _ _ => .ok

end Sys2Proof.Machine
end

