-- ==== Sys2Proof/Certificates/Slice0/Obligations.lean ====
section
/-! DEFINITION. The statements for the provers, each from numbered rules of spec/. -/

open Sys2Proof Sys2Proof.Machine

/-! ## Packets (spec/30_encoding.md) -/

/-- Words written out from the formats of R52: two of every variable format, one of each fixed one, and packets R57
lists as illegal. -/
def Obligations.SamplePacketsDecode : Prop :=
  decode [0x01, 0x72, 0x67, 0x62] = .ok (.cfgOrder [0x72, 0x67, 0x62]) ∧
  decode [0x02, 0x02] = .ok (.cfgGamma 2) ∧
  decode [0x03] = .ok .init ∧
  decode [0x10, 0x00, 0x00, 0x00, 0x01, 0xFF, 0x00, 0x00, 0x80] = .ok (.setColour 1 ⟨255, 0, 0, 128⟩) ∧
  decode [0x11, 0xFF, 0x00, 0x00, 0xFF, 0x00, 0xFF, 0x00, 0xFE]
    = .ok (.setColours [⟨255, 0, 0, 255⟩, ⟨0, 255, 0, 254⟩]) ∧
  decode [0x12, 0xFF, 0xFF, 0xFF, 0xFE] = .ok (.getColour (BitVec.ofInt 32 (-2))) ∧
  decode [0x14, 0x80] = .ok (.setBrightness 128) ∧
  decode [0x20, 1, 2, 3, 4, 5, 6, 7, 8, 0xFF, 0xFB]
    = .ok (.blend ⟨1, 2, 3, 4⟩ ⟨5, 6, 7, 8⟩ (BitVec.ofInt 16 (-5))) ∧
  decode [] = .error .emptyPacket ∧
  decode [0x04] = .error (.unknownOpcode 0x04) ∧
  decode [0x02, 0x03] = .error (.reservedMode 3) ∧
  decode [0x11, 0x01] = .error (.wrongLength .setColours)

/-- Decoding the packet of a well-formed command gives the command back, with every operand at every value the packet
can carry (R52, R53). -/
def Obligations.DecodeEncodeRoundTrip : Prop :=
  ∀ i : Instr, WellFormed i → decode (encode i) = .ok i

/-- A packet that decodes is the packet of the command it decodes to, and that command is well formed: no two packets
mean the same command (R56). -/
def Obligations.EncodeDecodeRoundTrip : Prop :=
  ∀ (p : Packet) (i : Instr), decode p = .ok i → encode i = p ∧ WellFormed i

/-- The decoder is total, and refuses exactly the packets R57 lists (R56, R57). -/
def Obligations.DecoderRefusesExactlyIllegal : Prop :=
  ∀ p : Packet, (IllegalPacket p ∧ ∃ e, decode p = .error e) ∨
    (¬ IllegalPacket p ∧ ∃ i, WellFormed i ∧ decode p = .ok i)

/-! ## Steps -/

/-- A packet at the port that decodes to a command: the step takes it from the host's list and is exec of the command
(00_scope.md R12). -/
def Obligations.StepRunsDecodedCommand : Prop :=
  ∀ (s : State) (p : Packet) (rest : List HostEvent) (i : Instr),
    s.host = .packet p :: rest → decode p = .ok i → step s = exec i { s with host := rest }

/-- An illegal packet is answered ERR_ILLEGAL with an empty payload in either phase and changes no state (R57, R140). -/
def Obligations.StepAnswersIllegal : Prop :=
  ∀ (s : State) (p : Packet) (rest : List HostEvent), s.host = .packet p :: rest → IllegalPacket p →
    ∃ t, step s = .next t ∧ sameBlock s t ∧ responds s t .errIllegal [] ∧ sameInputs { s with host := rest } t

/-- With nothing offered the block holds its state (R148). That this is a step of its own is the model's choice (log
entry 5). -/
def Obligations.StepIdleHolds : Prop := ∀ s : State, s.host = [] → step s = .next s

/-- Reset is one step that gives no response and puts every piece of state at the value of R30; the LED count is as
before (R151). -/
def Obligations.StepResets : Prop :=
  ∀ (s : State) (rest : List HostEvent), s.host = .reset :: rest →
    ∃ t, step s = .next t ∧ t.rsp = s.rsp ∧ t.host = rest ∧ t.nLeds = s.nLeds ∧
      t.phase = .config ∧ t.cfgerr = false ∧ t.gbright = 255 ∧ t.gmode = .tableCorrection ∧
      t.offR = .three ∧ t.offG = .two ∧ t.offB = .one ∧
      (∀ i, i < t.nLeds → t.colour i = ⟨0, 0, 0, 0⟩) ∧
      (∀ i, i < t.nLeds → t.record i = [0xE0, 0, 0, 0]) ∧
      (∀ a, (a < 4 ∨ 4 + 4 * t.nLeds ≤ a) → t.buf.read a = 0)

/-- The machine right after reset (R30). The streams of its ports, which are the model's own (log entry 5), are not
spoken of. -/
def Obligations.ResetValues : Prop :=
  State.reset.nLeds = Config.nLeds ∧ State.reset.phase = .config ∧ State.reset.cfgerr = false ∧
  State.reset.gbright = 255 ∧ State.reset.gmode = .tableCorrection ∧
  State.reset.offB.index = 1 ∧ State.reset.offG.index = 2 ∧ State.reset.offR.index = 3 ∧
  (∀ i, i < Config.nLeds → State.reset.colour i = ⟨0, 0, 0, 0⟩) ∧
  (∀ i, i < Config.nLeds →
    State.reset.record i = encodeRecord corrector ⟨0, 0, 0, 0⟩ 255 .tableCorrection .three .two .one ∧
    State.reset.record i = [0xE0, 0x00, 0x00, 0x00]) ∧
  (∀ a, (a < 4 ∨ 4 + 4 * Config.nLeds ≤ a) → State.reset.buf.read a = 0)

/-! ## Invariants (spec/10_state.md R27-R29) -/

/-- The invariant holds at reset. -/
def Obligations.ResetMeetsInvariant : Prop := State.reset.Inv

/-- Every step keeps the invariant, from every state that meets it: the canonical form of BUF, the lengths, distinct
offsets, the consistency of every record, the zero header and footer, the marked brightness bytes, CFGERR 0 in RUN, and
Off colours at full brightness in CONFIG. -/
def Obligations.StepKeepsInvariant : Prop :=
  ∀ s t : State, s.Inv → step s = .next t → t.Inv

/-- In every state of every run, whatever packets and resets the host offers and whatever the sink answers, every record
is the encoding of its LED's stored colour (R27) and the offsets are distinct (R29). The reset contents every run starts
from are those of R30; RESET_RENDERS is not taken (log entry 10). -/
def Obligations.ReachableIsConsistent : Prop :=
  ∀ s : State, Reachable s →
    (∀ i, i < Config.nLeds →
      s.buf.readBytes (4 + 4 * i) 4
        = encodeRecord corrector (s.colour i) s.gbright s.gmode s.offR s.offG s.offB) ∧
    s.offR ≠ s.offG ∧ s.offR ≠ s.offB ∧ s.offG ≠ s.offB

/-- What UPDATE offers the sink has the wire frame's layout (R33): four zero bytes, the record of every LED in order,
a zero footer. -/
def Obligations.OfferedFrameLayout : Prop :=
  ∀ s t : State, s.consistent → s.framed → s.phase = .run → exec .update s = .next t →
    ∃ answer, t.snk = s.snk ++
      [⟨[0, 0, 0, 0] ++ ((List.range s.nLeds).map s.encoded).flatten ++ List.replicate (footerLen s.nLeds) 0,
        answer⟩]

/-! ## Configuration commands -/

/-- CFG_ORDER (R94-R96): the packet, the phase check, the two failures, and success with each offset the place of its
letter. -/
def Obligations.CfgOrderResult : Prop :=
  ∀ (s : State) (str : List Byte),
    decode (0x01 :: str) = .ok (.cfgOrder str) ∧
    (s.phase ≠ .config → exec (.cfgOrder str) s = .next (s.respond .errPhase [])) ∧
    (s.phase = .config → ¬ hasAllLetters str →
      exec (.cfgOrder str) s = .next ({ s with cfgerr := true }.respond .errOrderMissing [])) ∧
    (s.phase = .config → hasAllLetters str → str.length ≠ 3 →
      exec (.cfgOrder str) s = .next ({ s with cfgerr := true }.respond .errOrderMalformed [])) ∧
    (s.phase = .config → hasAllLetters str → str.length = 3 →
      ∃ t, exec (.cfgOrder str) s = .next t ∧ responds s t .ok [] ∧
        (∀ k ch, str[k]? = some ch → (ch = 0x72 ∨ ch = 0x52) → t.offR.index = k + 1) ∧
        (∀ k ch, str[k]? = some ch → (ch = 0x67 ∨ ch = 0x47) → t.offG.index = k + 1) ∧
        (∀ k ch, str[k]? = some ch → (ch = 0x62 ∨ ch = 0x42) → t.offB.index = k + 1) ∧
        (∀ i, i < s.nLeds → t.record i
          = encodeRecord corrector (s.colour i) s.gbright s.gmode t.offR t.offG t.offB) ∧
        sameOutside s t 4 (4 + 4 * s.nLeds) ∧
        t.col = s.col ∧ t.gbright = s.gbright ∧ t.gmode = s.gmode ∧ t.phase = s.phase ∧ t.cfgerr = s.cfgerr ∧
        sameInputs s t)

/-- The six valid orders and the offsets they give, in any mix of cases where shown (the table of R95, R97). -/
def Obligations.OrderStringTable : Prop :=
  validate [0x72, 0x67, 0x62] = .valid .one .two .three ∧
  validate [0x72, 0x62, 0x67] = .valid .one .three .two ∧
  validate [0x67, 0x72, 0x62] = .valid .two .one .three ∧
  validate [0x67, 0x62, 0x72] = .valid .three .one .two ∧
  validate [0x62, 0x72, 0x67] = .valid .two .three .one ∧
  validate [0x62, 0x67, 0x72] = .valid .three .two .one ∧
  validate [0x67, 0x52, 0x62] = .valid .two .one .three ∧
  validate [0x72, 0x67] = .missing ∧ validate [0x72, 0x72, 0x67] = .missing ∧
  validate [0x72, 0x67, 0x62, 0x20] = .malformed

/-- CFG_GAMMA (R90): the packets that are illegal, and the mode set and every record written again by it, in CONFIG
only. The re-encode is stated for distinct offsets (R29). -/
def Obligations.CfgGammaResult : Prop :=
  ∀ (s : State) (g : GMode),
    decode [0x02, g.code] = .ok (.cfgGamma g.code) ∧
    (∀ b : Byte, 2 < b.toNat → decode [0x02, b] = .error (.reservedMode b)) ∧
    (∀ ops : List Byte, ops.length ≠ 1 → decode (0x02 :: ops) = .error (.wrongLength .cfgGamma)) ∧
    (s.phase ≠ .config → exec (.cfgGamma g.code) s = .next (s.respond .errPhase [])) ∧
    (s.phase = .config →
      ∃ t, exec (.cfgGamma g.code) s = .next t ∧ responds s t .ok [] ∧ t.gmode = g ∧
        (s.offsetsOk → ∀ i, i < s.nLeds → t.record i
          = encodeRecord corrector (s.colour i) s.gbright g s.offR s.offG s.offB) ∧
        sameOutside s t 4 (4 + 4 * s.nLeds) ∧
        t.col = s.col ∧ t.gbright = s.gbright ∧ t.offR = s.offR ∧ t.offG = s.offG ∧ t.offB = s.offB ∧
        t.phase = s.phase ∧ t.cfgerr = s.cfgerr ∧ sameInputs s t)

/-- The model's own choice (log entry 9): a CFG_GAMMA term with a reserved mode, which the decoder never gives, is
answered as its packet is, ERR_ILLEGAL in either phase. -/
def Obligations.CfgGammaReservedMode : Prop :=
  ∀ (s : State) (b : Byte), 2 < b.toNat → exec (.cfgGamma b) s = .next (s.respond .errIllegal [])

/-- INIT (R104): CONFIG to RUN when no CFG_ORDER has failed; ERR_CONFIG when one has, then and after any further
commands; ERR_PHASE in RUN. -/
def Obligations.InitResult : Prop :=
  ∀ s : State,
    decode [0x03] = .ok .init ∧
    (s.phase ≠ .config → exec .init s = .next (s.respond .errPhase [])) ∧
    (s.phase = .config → s.cfgerr = true → exec .init s = .next (s.respond .errConfig [])) ∧
    (s.phase = .config → s.cfgerr = true → ∀ (is : List Instr) (t : State), execAll is s = .next t →
      exec .init t = .next (t.respond .errConfig [])) ∧
    (s.phase = .config → s.cfgerr = false → exec .init s = .next ({ s with phase := .run }.respond .ok []))

/-- A block that has reported a configuration error never reaches RUN by commands alone (R137). -/
def Obligations.ConfigErrorKeepsConfig : Prop :=
  ∀ (is : List Instr) (s t : State), s.phase = .config → s.cfgerr = true → execAll is s = .next t →
    t.phase = .config ∧ t.cfgerr = true

/-! ## Colour commands -/

/-- SET_COLOUR (R106): an LED's colour and record, or nothing for a position that names no LED. The re-encode is stated
for distinct offsets (R29). -/
def Obligations.SetColourResult : Prop :=
  ∀ (s : State) (pos : BitVec 32) (c : Colour),
    decode ([0x10] ++ be32Bytes pos ++ [c.r, c.g, c.b, c.l]) = .ok (.setColour pos c) ∧
    (s.phase ≠ .run → exec (.setColour pos c) s = .next (s.respond .errPhase [])) ∧
    (s.phase = .run → (pos.toInt < 0 ∨ (s.nLeds : Int) ≤ pos.toInt) →
      exec (.setColour pos c) s = .next (s.respond .ok [])) ∧
    (s.phase = .run → ∀ i : Nat, pos.toInt = i → i < s.nLeds →
      ∃ t, exec (.setColour pos c) s = .next t ∧ responds s t .ok [] ∧ t.nLeds = s.nLeds ∧
        t.colour i = c ∧ (∀ j, j ≠ i → t.colour j = s.colour j) ∧
        (s.offsetsOk → t.record i
          = encodeRecord corrector c s.gbright s.gmode s.offR s.offG s.offB) ∧
        sameOutside s t (4 + 4 * i) (4 + 4 * i + 4) ∧ sameControl s t ∧ sameInputs s t)

/-- SET_COLOURS (R108): LEDs 0 to m-1 take the first m entries, m = min(k, N_LEDS); nothing else changes. The re-encode
is stated for distinct offsets (R29). -/
def Obligations.SetColoursResult : Prop :=
  ∀ (s : State) (e : List Colour),
    decode (0x11 :: coloursBytes e) = .ok (.setColours e) ∧
    (∀ ops : List Byte, ops.length % 4 ≠ 0 → decode (0x11 :: ops) = .error (.wrongLength .setColours)) ∧
    (s.phase ≠ .run → exec (.setColours e) s = .next (s.respond .errPhase [])) ∧
    (s.phase = .run →
      ∃ t, exec (.setColours e) s = .next t ∧ responds s t .ok [] ∧ t.nLeds = s.nLeds ∧
        (∀ j c, j < s.nLeds → e[j]? = some c → t.colour j = c ∧
          (s.offsetsOk → t.record j
            = encodeRecord corrector c s.gbright s.gmode s.offR s.offG s.offB)) ∧
        (∀ j, e.length ≤ j → t.colour j = s.colour j) ∧
        sameOutside s t 4 (4 + 4 * min e.length s.nLeds) ∧ sameControl s t ∧ sameInputs s t)

/-- SET_COLOURS leaves the block as the SET_COLOUR commands for its entries do, issued one after another (R109). The
bound on the LED count is that of R7: every LED has a position. -/
def Obligations.SetColoursIsSetColourByOne : Prop :=
  ∀ (s t : State) (e : List Colour), s.phase = .run → s.nLeds ≤ 2147483647 →
    exec (.setColours e) s = .next t →
    ∃ u, execAll ((List.range (min e.length s.nLeds)).map
        (fun j => .setColour (BitVec.ofNat 32 j) (e.getD j Colour.off))) s = .next u ∧ sameBlock t u

/-- GET_COLOUR (R110): the stored colour, or (0, 0, 0, 0) for a position that names no LED. -/
def Obligations.GetColourResult : Prop :=
  ∀ (s : State) (pos : BitVec 32),
    decode ([0x12] ++ be32Bytes pos) = .ok (.getColour pos) ∧
    (s.phase ≠ .run → exec (.getColour pos) s = .next (s.respond .errPhase [])) ∧
    (s.phase = .run → (pos.toInt < 0 ∨ (s.nLeds : Int) ≤ pos.toInt) →
      exec (.getColour pos) s = .next (s.respond .ok [0, 0, 0, 0])) ∧
    (s.phase = .run → ∀ (i : Nat) (c : Colour), pos.toInt = i → s.col[i]? = some c →
      exec (.getColour pos) s = .next (s.respond .ok [c.r, c.g, c.b, c.l]))

/-- GET_COLOUR after SET_COLOUR at the same position returns the colour set, whatever SET_BRIGHTNESS comes between
(R44, R111). -/
def Obligations.GetColourReturnsColourSet : Prop :=
  ∀ (s t u : State) (pos : BitVec 32) (c : Colour) (v : Byte), s.phase = .run →
    0 ≤ pos.toInt → pos.toInt < s.nLeds →
    execAll [.setColour pos c, .setBrightness v] s = .next t → exec (.getColour pos) t = .next u →
    responds t u .ok [c.r, c.g, c.b, c.l]

/-- SNAPSHOT (R112): the colours of LED 0, LED 1, ... as R, G, B, L. -/
def Obligations.SnapshotResult : Prop :=
  ∀ s : State,
    decode [0x13] = .ok .snapshot ∧
    (s.phase ≠ .run → exec .snapshot s = .next (s.respond .errPhase [])) ∧
    (s.phase = .run →
      exec .snapshot s = .next (s.respond .ok (s.col.map (fun c => [c.r, c.g, c.b, c.l])).flatten))

/-- CLEAR (R118): every LED Off and every record re-encoded; nothing is offered. The re-encode is stated for distinct
offsets (R29). -/
def Obligations.ClearResult : Prop :=
  ∀ s : State,
    decode [0x16] = .ok .clear ∧
    (s.phase ≠ .run → exec .clear s = .next (s.respond .errPhase [])) ∧
    (s.phase = .run →
      ∃ t, exec .clear s = .next t ∧ responds s t .ok [] ∧ t.nLeds = s.nLeds ∧
        (∀ i, i < s.nLeds → t.colour i = ⟨0, 0, 0, 0⟩ ∧
          (s.offsetsOk → t.record i
            = encodeRecord corrector ⟨0, 0, 0, 0⟩ s.gbright s.gmode s.offR s.offG s.offB) ∧
          (s.offsetsOk → s.gmode ≠ .customCorrection → t.record i = [0xE0, 0, 0, 0])) ∧
        sameOutside s t 4 (4 + 4 * s.nLeds) ∧ sameControl s t ∧ sameInputs s t) ∧
    exec .clear s = exec (.setColours (List.replicate s.nLeds Colour.off)) s

/-! ## Brightness commands -/

/-- SET_BRIGHTNESS (R114): the scalar and every record, COL untouched. The re-encode is stated for distinct offsets
(R29). -/
def Obligations.SetBrightnessResult : Prop :=
  ∀ (s : State) (v : Byte),
    decode [0x14, v] = .ok (.setBrightness v) ∧
    (s.phase ≠ .run → exec (.setBrightness v) s = .next (s.respond .errPhase [])) ∧
    (s.phase = .run →
      ∃ t, exec (.setBrightness v) s = .next t ∧ responds s t .ok [] ∧ t.gbright = v ∧ t.col = s.col ∧
        (s.offsetsOk → ∀ i, i < s.nLeds → t.record i
          = encodeRecord corrector (s.colour i) v s.gmode s.offR s.offG s.offB) ∧
        sameOutside s t 4 (4 + 4 * s.nLeds) ∧
        t.gmode = s.gmode ∧ t.offR = s.offR ∧ t.offG = s.offG ∧ t.offB = s.offB ∧ t.phase = s.phase ∧
        t.cfgerr = s.cfgerr ∧ sameInputs s t)

/-- GET_BRIGHTNESS (R116). -/
def Obligations.GetBrightnessResult : Prop :=
  ∀ s : State,
    decode [0x15] = .ok .getBrightness ∧
    (s.phase ≠ .run → exec .getBrightness s = .next (s.respond .errPhase [])) ∧
    (s.phase = .run → exec .getBrightness s = .next (s.respond .ok [s.gbright]))

/-- Without a custom function, the three channel bytes do not depend on the brightness (R89, R115). -/
def Obligations.ChannelBytesIgnoreBrightness : Prop :=
  ∀ (k : Corrector) (c : Colour) (gb gb' : Byte) (mode : GMode) (r g b : Slot), mode ≠ .customCorrection →
    (encodeRecord k c gb mode r g b).tail = (encodeRecord k c gb' mode r g b).tail

/-- Lowering the brightness and raising it again restores the block (R115). -/
def Obligations.BrightnessRestores : Prop :=
  ∀ (s t : State) (v : Byte), s.phase = .run → s.offsetsOk → s.consistent →
    execAll [.setBrightness v, .setBrightness s.gbright] s = .next t → looksSame s t

/-- The scaling of R103: the effective L is the floored product, no more than the stored L and no more than the
brightness, and the brightness byte is E0 plus its top five bits. -/
def Obligations.EffectiveLuminosity : Prop :=
  ∀ gb l : Byte,
    (effL gb l).toNat = gb.toNat * l.toNat / 255 ∧ (effL gb l).toNat ≤ l.toNat ∧ (effL gb l).toNat ≤ gb.toNat ∧
    (brightnessByte (effL gb l)).toNat = 0xE0 + (effL gb l).toNat / 8

/-! ## UPDATE and the sink -/

/-- UPDATE (R120): one offer of all LEN bytes of BUF in order, and the status its answer gives; no state of the block
changes. -/
def Obligations.UpdateResult : Prop :=
  ∀ (s : State) (answer : SinkAnswer) (later : List SinkAnswer),
    decode [0x17] = .ok .update ∧
    (s.phase ≠ .run → exec .update s = .next (s.respond .errPhase [])) ∧
    (s.phase = .run → s.sink = answer :: later →
      ∃ t bytes, exec .update s = .next t ∧ sameBlock s t ∧ t.host = s.host ∧
        bytes.length = frameLen s.nLeds ∧ (∀ a, a < frameLen s.nLeds → bytes[a]? = some (s.buf.read a)) ∧
        t.snk = s.snk ++ [⟨bytes, answer⟩] ∧ t.sink = later ∧
        (answer.err = true → responds s t .errSendSink []) ∧
        (answer.err = false → answer.acc ≠ frameLen s.nLeds → responds s t .errSendShort []) ∧
        (answer.err = false → answer.acc = frameLen s.nLeds → responds s t .ok []))

/-- With no answer from the sink UPDATE never finishes (R160). That the model stops there with a fault of this name is
its own choice (log entry 4). -/
def Obligations.UpdateWaitsForSink : Prop :=
  ∀ s : State, s.phase = .run → s.sink = [] → exec .update s = .fault .sinkSilent

/-- No command but UPDATE offers anything to the sink or takes an answer of it (R122, R161). -/
def Obligations.OnlyUpdateOffers : Prop :=
  ∀ (i : Instr) (s t : State), i ≠ .update → exec i s = .next t → t.snk = s.snk ∧ t.sink = s.sink

/-- FOOTER and LEN (R8), the footer by DS's ceiling. -/
def Obligations.FrameSizes : Prop :=
  ∀ n : Nat, 1 ≤ n →
    (footerLen n : Int) = ⌈((n : ℚ) - 1) / 16⌉ + 2 ∧ frameLen n = 4 + 4 * n + footerLen n ∧
    footerLen n = (n + 14) / 16 + 2

/-! ## BLEND (spec/40_colour_model.md) -/

/-- BLEND (R77, R78): each channel interpolated by itself, in either phase; nothing written. -/
def Obligations.BlendResult : Prop :=
  ∀ (s : State) (o t : Colour) (q : BitVec 16),
    decode ([0x20] ++ [o.r, o.g, o.b, o.l] ++ [t.r, t.g, t.b, t.l] ++ be16Bytes q) = .ok (.blend o t q) ∧
    (∀ ops : List Byte, ops.length ≠ 10 → decode (0x20 :: ops) = .error (.wrongLength .blend)) ∧
    ∃ r : Colour, exec (.blend o t q) s = .next (s.respond .ok [r.r, r.g, r.b, r.l]) ∧
      blendsTo o.r t.r r.r q.toInt ∧ blendsTo o.g t.g r.g q.toInt ∧
      blendsTo o.b t.b r.b q.toInt ∧ blendsTo o.l t.l r.l q.toInt

/-- The integer form agrees with DS's law over the rationals at the ratio q / 256: the whole sum truncated (R76). -/
def Obligations.BlendIsTruncatedInterpolation : Prop :=
  ∀ (o t : Byte) (q : BitVec 16),
    ((q.toInt : ℚ) / 256 ≤ 0 → blend8 o t q = o) ∧ (1 ≤ (q.toInt : ℚ) / 256 → blend8 o t q = t) ∧
    (0 < (q.toInt : ℚ) / 256 → (q.toInt : ℚ) / 256 < 1 →
      ((blend8 o t q).toNat : Int)
        = ⌊(o.toNat : ℚ) + ((t.toNat : ℚ) - (o.toNat : ℚ)) * ((q.toInt : ℚ) / 256)⌋)

/-- Where the result lies (R79): blending up stays below the target, blending down moves at least one step. -/
def Obligations.BlendBounds : Prop :=
  ∀ (o t : Byte) (q : BitVec 16),
    (o = t → blend8 o t q = o) ∧
    (0 < q.toInt → q.toInt < 256 → o.toNat < t.toNat →
      o.toNat ≤ (blend8 o t q).toNat ∧ (blend8 o t q).toNat < t.toNat) ∧
    (0 < q.toInt → q.toInt < 256 → t.toNat < o.toNat →
      t.toNat ≤ (blend8 o t q).toNat ∧ (blend8 o t q).toNat + 1 ≤ o.toNat)

/-- A larger ratio never moves the result away from the target (95_test_vectors.md section 2). -/
def Obligations.BlendMonotoneInRatio : Prop :=
  ∀ (o t : Byte) (q q' : BitVec 16), q.toInt ≤ q'.toInt →
    (o.toNat ≤ t.toNat → (blend8 o t q).toNat ≤ (blend8 o t q').toNat) ∧
    (t.toNat ≤ o.toNat → (blend8 o t q').toNat ≤ (blend8 o t q).toNat)

/-! ## Gamma (spec/41_gamma.md) -/

/-- The built block's table has (G1), (G2) and (G3); (G4) is its type (R83). -/
def Obligations.GammaTableProperties : Prop :=
  gammaTable 0 = 0 ∧ gammaTable 255 = 255 ∧
  (∀ i : Byte, i.toNat < 255 → (gammaTable i).toNat ≤ (gammaTable (i + 1)).toNat)

/-- The model shuts out no table with the properties: each is the table of some raw values (R83, log entry 2). -/
def Obligations.EveryGammaTableAllowed : Prop :=
  ∀ T : Byte → Byte, T 0 = 0 → T 255 = 255 → (∀ i : Byte, i.toNat < 255 → (T i).toNat ≤ (T (i + 1)).toNat) →
    tableOf T = T

/-- What the three modes write (R86, R87, R88): the table or the custom function on the working colour, and L left to
the brightness byte. -/
def Obligations.GammaModes : Prop :=
  ∀ (k : Corrector) (c : Colour) (gb : Byte),
    encodeRecord k c gb .noCorrection .one .two .three = [brightnessByte (effL gb c.l), c.r, c.g, c.b] ∧
    encodeRecord k c gb .tableCorrection .one .two .three
      = [brightnessByte (effL gb c.l), k.table c.r, k.table c.g, k.table c.b] ∧
    encodeRecord k c gb .customCorrection .three .one .two
      = [brightnessByte (effL gb c.l), (k.custom ⟨c.r, c.g, c.b, effL gb c.l⟩).g,
          (k.custom ⟨c.r, c.g, c.b, effL gb c.l⟩).b, (k.custom ⟨c.r, c.g, c.b, effL gb c.l⟩).r]

/-! ## Responses and errors (spec/60_exceptions.md) -/

/-- A command in the wrong phase is answered ERR_PHASE, and nothing changes; BLEND never is (R141). -/
def Obligations.WrongPhaseAnswered : Prop :=
  (∀ (i : Instr) (s : State), WellFormed i → phaseAccepts i.command s.phase = false →
    exec i s = .next (s.respond .errPhase [])) ∧
  (∀ (s t : State) (o g : Colour) (q : BitVec 16), exec (.blend o g q) s = .next t →
    ∃ payload, responds s t .ok payload)

/-- Every command that ends gives exactly one response; the payload is empty unless the status is OK, and then has the
length its command gives (R59, R61). -/
def Obligations.OneResponsePerCommand : Prop :=
  ∀ (i : Instr) (s t : State), exec i s = .next t →
    ∃ st payload, responds s t st payload ∧ (st ≠ .ok → payload = []) ∧
      (st = .ok → payload.length = payloadLength s.nLeds i.command)

/-- Which command can give which status (the table of R142). -/
def Obligations.StatusOfCommand : Prop :=
  ∀ (i : Instr) (s t : State), WellFormed i → exec i s = .next t →
    ∃ st payload, responds s t st payload ∧ mayAnswer i.command st = true

/-- The status of a packet is that of the first test that fails: decode, phase, then the command's own (R143). -/
def Obligations.FirstFailingTestDecides : Prop :=
  ∀ (s t : State) (p : Packet) (rest : List HostEvent), s.host = .packet p :: rest → step s = .next t →
    ∃ payload, responds s t (firstFailure s p) payload

/-- Errors are precise (R144): a command answered with a status other than OK has left the block as it was, but that a
failed CFG_ORDER has set CFGERR. -/
def Obligations.ErrorsArePrecise : Prop :=
  ∀ (i : Instr) (s t : State) (st : Status) (payload : List Byte), exec i s = .next t →
    responds s t st payload → st ≠ .ok →
    ((st = .errOrderMissing ∨ st = .errOrderMalformed) ∧ sameBlock { s with cfgerr := true } t) ∨
    ((st ≠ .errOrderMissing ∧ st ≠ .errOrderMalformed) ∧ sameBlock s t)

/-- Nothing stops a command but a sink that gives UPDATE no answer (R149, R160). -/
def Obligations.NothingElseStops : Prop :=
  ∀ (i : Instr) (s : State), (i = .update → s.phase = .run → s.sink ≠ []) → ∃ t, exec i s = .next t

/-! ## Whole-machine rules and frames -/

/-- PHASE goes to RUN only by INIT, and back to CONFIG only by reset (R19). -/
def Obligations.PhaseTransitions : Prop :=
  ∀ s t : State, step s = .next t → t.phase ≠ s.phase →
    (s.phase = .config ∧ t.phase = .run ∧ ∃ p rest, s.host = .packet p :: rest ∧ decode p = .ok .init) ∨
    (s.phase = .run ∧ t.phase = .config ∧ ∃ rest, s.host = .reset :: rest)

/-- The order and the gamma mode are frozen in RUN (R98, R91, R159). -/
def Obligations.ConfigurationFrozenInRun : Prop :=
  ∀ (i : Instr) (s t : State), s.phase = .run → exec i s = .next t →
    t.offR = s.offR ∧ t.offG = s.offG ∧ t.offB = s.offB ∧ t.gmode = s.gmode ∧ t.phase = .run

/-- CFGERR is set only by a failed CFG_ORDER and cleared by no command (R20). -/
def Obligations.CfgErrIsSticky : Prop :=
  ∀ (i : Instr) (s t : State), exec i s = .next t →
    (s.cfgerr = true → t.cfgerr = true) ∧
    (s.cfgerr = false → t.cfgerr = true →
      s.phase = .config ∧ ∃ str, i = .cfgOrder str ∧ (¬ hasAllLetters str ∨ str.length ≠ 3))

/-- No command changes what the host has yet to issue (R47). -/
def Obligations.CommandsLeaveHostAlone : Prop :=
  ∀ (i : Instr) (s t : State), exec i s = .next t → t.host = s.host

/-- The reading commands GET_COLOUR, SNAPSHOT, GET_BRIGHTNESS and BLEND change nothing but their response, and UPDATE
changes nothing of the block (R42). -/
def Obligations.ReadersFrame : Prop :=
  (∀ (s t : State) (pos : BitVec 32), exec (.getColour pos) s = .next t → sameBlock s t ∧ sameInputs s t) ∧
  (∀ s t : State, exec .snapshot s = .next t → sameBlock s t ∧ sameInputs s t) ∧
  (∀ s t : State, exec .getBrightness s = .next t → sameBlock s t ∧ sameInputs s t) ∧
  (∀ (s t : State) (o g : Colour) (q : BitVec 16), exec (.blend o g q) s = .next t →
    sameBlock s t ∧ sameInputs s t) ∧
  (∀ s t : State, exec .update s = .next t → sameBlock s t ∧ t.host = s.host)

/-- SET_COLOUR, SET_COLOURS and CLEAR change no control field and no byte of BUF outside the records of the LEDs they
name, in either phase. -/
def Obligations.StoresFrame : Prop :=
  (∀ (s t : State) (pos : BitVec 32) (c : Colour), exec (.setColour pos c) s = .next t →
    sameControl s t ∧ sameInputs s t ∧
      (∀ j, posIndex s.nLeds pos ≠ some j → t.colour j = s.colour j) ∧
      (∀ a, (∀ i, posIndex s.nLeds pos = some i → a < base i ∨ base i + 4 ≤ a) →
        t.buf.read a = s.buf.read a)) ∧
  (∀ (s t : State) (e : List Colour), exec (.setColours e) s = .next t →
    sameControl s t ∧ sameInputs s t ∧
      (∀ j, (e.take s.nLeds).length ≤ j → t.colour j = s.colour j) ∧
      sameOutside s t (base 0) (base (e.take s.nLeds).length)) ∧
  (∀ s t : State, exec .clear s = .next t →
    sameControl s t ∧ sameInputs s t ∧ t.nLeds = s.nLeds ∧ sameOutside s t (base 0) (base s.nLeds))

/-- CFG_ORDER, CFG_GAMMA, INIT and SET_BRIGHTNESS change no stored colour, no byte of BUF outside the records, and of
the control fields only their own. -/
def Obligations.ControlFrame : Prop :=
  (∀ (s t : State) (str : List Byte), exec (.cfgOrder str) s = .next t →
    t.col = s.col ∧ t.gbright = s.gbright ∧ t.gmode = s.gmode ∧ t.phase = s.phase ∧
      sameOutside s t (base 0) (base s.nLeds) ∧ sameInputs s t) ∧
  (∀ (s t : State) (mode : Byte), exec (.cfgGamma mode) s = .next t →
    t.col = s.col ∧ t.gbright = s.gbright ∧ t.offR = s.offR ∧ t.offG = s.offG ∧ t.offB = s.offB ∧
      t.phase = s.phase ∧ t.cfgerr = s.cfgerr ∧ sameOutside s t (base 0) (base s.nLeds) ∧ sameInputs s t) ∧
  (∀ s t : State, exec .init s = .next t →
    t.col = s.col ∧ t.buf = s.buf ∧ t.gbright = s.gbright ∧ t.gmode = s.gmode ∧ t.offR = s.offR ∧
      t.offG = s.offG ∧ t.offB = s.offB ∧ t.cfgerr = s.cfgerr ∧ sameInputs s t) ∧
  (∀ (s t : State) (v : Byte), exec (.setBrightness v) s = .next t →
    t.col = s.col ∧ t.gmode = s.gmode ∧ t.offR = s.offR ∧ t.offG = s.offG ∧ t.offB = s.offB ∧
      t.phase = s.phase ∧ t.cfgerr = s.cfgerr ∧ sameOutside s t (base 0) (base s.nLeds) ∧ sameInputs s t)

/-- SET_COLOUR, SET_BRIGHTNESS, CLEAR, CFG_GAMMA and a CFG_ORDER that succeeds are idempotent (R42), from every state
with distinct offsets (R29). -/
def Obligations.WritersAreIdempotent : Prop :=
  ∀ (i : Instr) (s t u : State), s.offsetsOk →
    ((∃ pos c, i = .setColour pos c) ∨ (∃ v, i = .setBrightness v) ∨ i = .clear ∨ (∃ m, i = .cfgGamma m) ∨
      (∃ str, i = .cfgOrder str ∧ hasAllLetters str ∧ str.length = 3)) →
    exec i s = .next t → exec i t = .next u → looksSame t u

/-- The block's state after a sequence of commands depends on its state before and on the commands, not on what the
sink answers, nor on earlier responses and offers (R25, R46). -/
def Obligations.BlockIgnoresSinkAnswers : Prop :=
  ∀ (is : List Instr) (s s' t t' : State), sameBlock s s' → execAll is s = .next t → execAll is s' = .next t' →
    sameBlock t t'

/-! ## The host's text forms (spec/44_host_text_forms.md, spec/30_encoding.md R64-R66) -/

/-- HexParse reads back the `#RRGGBBLL` form of every Colour, in either case of its digits, gives L = 255 to the
`#RRGGBB` form, and gives (0, 0, 0, 255) for every text of another length (R127, R128). -/
def Obligations.HexParseForms : Prop :=
  (∀ (upper : Bool) (c : Colour), hexParse (hexText upper c) = c) ∧
  (∀ (upper : Bool) (c : Colour), hexParse ((hexText upper c).take 7) = ⟨c.r, c.g, c.b, 255⟩) ∧
  (∀ text : List Char, text.length ≠ 7 → text.length ≠ 9 → hexParse text = ⟨0, 0, 0, 255⟩)

/-- Whatever line the assembler accepts, it gives the packet of a legal command (R64, R66). -/
def Obligations.AssembledLinesAreLegal : Prop :=
  ∀ (line : List Char) (p : Packet), assemble line = some p →
    ∃ i, WellFormed i ∧ assembleLine line = some i ∧ decode p = .ok i
end

