-- ==== Sys2Proof/Laws/Codec.lean ====
section
/-! SUPPORT. The decoder's and the encoder's parts: byte order, colour lists, the opcode map. -/

namespace Sys2Proof

theorem be16_be16Bytes (v : BitVec 16) : be16 (v.extractLsb' 8 8) (v.extractLsb' 0 8) = v := by
  apply BitVec.eq_of_toNat_eq
  have h := v.isLt
  simp only [be16, BitVec.toNat_append, BitVec.extractLsb'_toNat, Nat.shiftLeft_eq, Nat.shiftRight_eq_div_pow]
  rw [Nat.mul_comm, ← Nat.two_pow_add_eq_or_of_lt (by omega)]
  omega

theorem be32_be32Bytes (v : BitVec 32) :
    be32 (v.extractLsb' 24 8) (v.extractLsb' 16 8) (v.extractLsb' 8 8) (v.extractLsb' 0 8) = v := by
  apply BitVec.eq_of_toNat_eq
  have h := v.isLt
  simp only [be32, BitVec.toNat_append, BitVec.extractLsb'_toNat, Nat.shiftLeft_eq, Nat.shiftRight_eq_div_pow]
  rw [Nat.mul_comm _ (2 ^ 8), ← Nat.two_pow_add_eq_or_of_lt (by omega), Nat.mul_comm _ (2 ^ 8),
    ← Nat.two_pow_add_eq_or_of_lt (by omega), Nat.mul_comm _ (2 ^ (8 + 8)),
    ← Nat.two_pow_add_eq_or_of_lt (by omega)]
  omega

theorem be16Bytes_be16 (a b : Byte) : be16Bytes (be16 a b) = [a, b] := by
  simp only [be16Bytes, be16, List.cons.injEq, and_true]
  constructor <;> apply BitVec.eq_of_toNat_eq <;>
    simp only [BitVec.toNat_append, BitVec.extractLsb'_toNat, Nat.shiftLeft_eq, Nat.shiftRight_eq_div_pow] <;>
    rw [Nat.mul_comm, ← Nat.two_pow_add_eq_or_of_lt (by omega)] <;> omega

theorem be32Bytes_be32 (a b c d : Byte) : be32Bytes (be32 a b c d) = [a, b, c, d] := by
  simp only [be32Bytes, be32, List.cons.injEq, and_true]
  refine ⟨?_, ?_, ?_, ?_⟩ <;> apply BitVec.eq_of_toNat_eq <;>
    simp only [BitVec.toNat_append, BitVec.extractLsb'_toNat, Nat.shiftLeft_eq, Nat.shiftRight_eq_div_pow] <;>
    rw [Nat.mul_comm _ (2 ^ 8), ← Nat.two_pow_add_eq_or_of_lt (by omega), Nat.mul_comm _ (2 ^ 8),
      ← Nat.two_pow_add_eq_or_of_lt (by omega), Nat.mul_comm _ (2 ^ (8 + 8)),
      ← Nat.two_pow_add_eq_or_of_lt (by omega)] <;> omega

/-- Every legal list's bytes read back as the list (format L). -/
theorem coloursOfBytes_coloursBytes : ∀ e : List Colour, coloursOfBytes (coloursBytes e) = some e
  | [] => rfl
  | c :: cs => by
    simp [coloursBytes, Colour.bytes, coloursOfBytes, coloursOfBytes_coloursBytes cs]

/-- A byte sequence that reads as a list is that list's bytes (format L). -/
theorem coloursBytes_of_some : ∀ (bs : List Byte) (e : List Colour),
    coloursOfBytes bs = some e → coloursBytes e = bs
  | [], e, h => by simp only [coloursOfBytes, Option.some.injEq] at h; subst h; rfl
  | r :: g :: b :: l :: rest, e, h => by
    simp only [coloursOfBytes, Option.map_eq_some_iff] at h
    obtain ⟨cs, hcs, rfl⟩ := h
    simp [coloursBytes, Colour.bytes, coloursBytes_of_some rest cs hcs]
  | [_], _, h => by simp [coloursOfBytes] at h
  | [_, _], _, h => by simp [coloursOfBytes] at h
  | [_, _, _], _, h => by simp [coloursOfBytes] at h

/-- The bytes that read as no list are those whose number is no multiple of 4 (R56). -/
theorem coloursOfBytes_eq_none : ∀ bs : List Byte, coloursOfBytes bs = none ↔ bs.length % 4 ≠ 0
  | [] => by simp [coloursOfBytes]
  | r :: g :: b :: l :: rest => by
    have ih := coloursOfBytes_eq_none rest
    simp only [coloursOfBytes, Option.map_eq_none_iff, ih, List.length_cons]
    omega
  | [_] => by simp [coloursOfBytes]
  | [_, _] => by simp [coloursOfBytes]
  | [_, _, _] => by simp [coloursOfBytes]

@[simp] theorem coloursBytes_length : ∀ e : List Colour, (coloursBytes e).length = 4 * e.length
  | [] => rfl
  | c :: cs => by simp [coloursBytes, Colour.bytes, coloursBytes_length cs]; omega

/-- Every opcode selects its own command (R54). -/
@[simp] theorem ofOpcode_opcode (c : Command) : Command.ofOpcode? c.opcode = some c := by cases c <;> rfl

/-- A byte that selects a command is that command's opcode. -/
theorem opcode_of_ofOpcode {op : Byte} {c : Command} (h : Command.ofOpcode? op = some c) : c.opcode = op := by
  have := List.find?_some h
  simpa using this

/-- A byte that selects no command is no command's opcode. -/
theorem ofOpcode_eq_none {op : Byte} : Command.ofOpcode? op = none ↔ ∀ c : Command, c.opcode ≠ op := by
  refine ⟨fun h c hc => ?_, fun h => ?_⟩
  · subst hc
    simp at h
  · simp only [Command.ofOpcode?, List.find?_eq_none]
    intro c _
    simpa using h c

/-- The decoder on a packet that begins with a command's opcode. -/
theorem decode_opcode (c : Command) (bytes : List Byte) : decode (c.opcode :: bytes) = decodeOperands c bytes := by
  simp [decode]

end Sys2Proof
end

