-- ==== Sys2Proof/Laws/Gamma.lean ====
section
/-! SUPPORT. The running maximum behind the gamma table (spec/41_gamma.md R83). -/

namespace Sys2Proof.Machine

theorem runningMax_mono (f : Byte → Byte) {i j : Nat} (h : i ≤ j) : runningMax f i ≤ runningMax f j := by
  induction h with
  | refl => exact Nat.le_refl _
  | step _ ih => exact Nat.le_trans ih (Nat.le_max_left _ _)

theorem runningMax_lt (f : Byte → Byte) : ∀ k, runningMax f k < 256
  | 0 => by simp [runningMax]
  | k + 1 => Nat.max_lt.2 ⟨runningMax_lt f k, (f _).isLt⟩

/-- The raw value at an index is at most the running maximum there. -/
theorem le_runningMax (f : Byte → Byte) (k : Nat) :
    (f (BitVec.ofNat 8 (k + 1))).toNat ≤ runningMax f (k + 1) := Nat.le_max_right _ _

end Sys2Proof.Machine
end

