-- ==== Sys2Proof/Laws/Memory.lean ====
section
/-! SUPPORT. BUF by the byte: a read after a write, and the canonical form. -/

namespace Sys2Proof.Machine

theorem read_insert (a : Nat) (v : Byte) (b : Nat) :
    ∀ m : Memory, (∀ cell ∈ m, cell.1 ≠ a) →
      (Memory.insert a v m).read b = if a = b then v else m.read b
  | [], _ => by simp [Memory.insert, Memory.read]
  | (x, u) :: rest, h => by
    have hx : x ≠ a := h (x, u) (by simp)
    have ih := read_insert a v b rest (fun cell hc => h cell (by simp [hc]))
    by_cases hlt : a < x
    · simp [Memory.insert, hlt, Memory.read]
    · simp only [Memory.insert, hlt, if_false, Memory.read, ih]
      by_cases hxb : x = b
      · subst hxb
        simp [Ne.symm hx]
      · simp [hxb]

theorem read_filter (a b : Nat) :
    ∀ m : Memory, Memory.read (m.filter (fun cell => cell.1 != a)) b
      = if a = b then Memory.unlisted else m.read b
  | [] => by simp [Memory.read]
  | (x, u) :: rest => by
    have ih := read_filter a b rest
    by_cases hx : x = a
    · subst hx
      simp only [List.filter_cons, bne_self_eq_false, Bool.false_eq_true, if_false, ih, Memory.read]
      split <;> rfl
    · have hb : (x != a) = true := by simp [hx]
      simp only [List.filter_cons, hb, if_true, Memory.read, ih]
      by_cases hxb : x = b
      · subst hxb
        simp [Ne.symm hx]
      · simp [hxb]

/-- A read after a write gives the byte written at that index and the old byte at every other. -/
@[simp] theorem read_write (m : Memory) (a : Nat) (v : Byte) (b : Nat) :
    (m.write a v).read b = if a = b then v else m.read b := by
  unfold Memory.write
  by_cases hv : v = Memory.unlisted
  · simp only [hv, if_true, read_filter]
  · simp only [hv, if_false]
    rw [read_insert _ _ _ _ (by simp), read_filter]
    split <;> rfl

theorem insert_wf (a : Nat) (v : Byte) (hv : v ≠ Memory.unlisted) :
    ∀ m : Memory, m.wf → (∀ cell ∈ m, cell.1 ≠ a) →
      (Memory.insert a v m).wf ∧ ∀ cell ∈ Memory.insert a v m, cell = (a, v) ∨ cell ∈ m
  | [], _, _ => by simp [Memory.insert, Memory.wf, hv]
  | (x, u) :: rest, hw, hne => by
    have hx : x ≠ a := hne (x, u) (by simp)
    have hw' : Memory.wf rest := ⟨by have := hw.1; simp_all, fun cell hc => hw.2 cell (by simp [hc])⟩
    have ih := insert_wf a v hv rest hw' (fun cell hc => hne cell (by simp [hc]))
    have hhead : ∀ cell ∈ rest, x < cell.1 := by
      have := hw.1
      simp only [List.map_cons, List.pairwise_cons] at this
      intro cell hc
      exact this.1 _ (List.mem_map_of_mem hc)
    by_cases hlt : a < x
    · simp only [Memory.insert, hlt, if_true]
      refine ⟨⟨?_, ?_⟩, by simp⟩
      · simp only [List.map_cons, List.pairwise_cons, List.mem_cons]
        refine ⟨?_, ?_, hw'.1⟩
        · rintro y (rfl | hy)
          · exact hlt
          · obtain ⟨cell, hc, rfl⟩ := List.mem_map.1 hy
            exact Nat.lt_trans hlt (hhead cell hc)
        · intro y hy
          obtain ⟨cell, hc, rfl⟩ := List.mem_map.1 hy
          exact hhead cell hc
      · intro cell hc
        rcases List.mem_cons.1 hc with rfl | hc
        · exact hv
        · exact hw.2 cell hc
    · have hxa : x < a := by omega
      simp only [Memory.insert, hlt, if_false]
      refine ⟨⟨?_, ?_⟩, ?_⟩
      · simp only [List.map_cons, List.pairwise_cons]
        refine ⟨?_, ih.1.1⟩
        intro y hy
        obtain ⟨cell, hc, rfl⟩ := List.mem_map.1 hy
        rcases ih.2 cell hc with rfl | hc
        · exact hxa
        · exact hhead cell hc
      · intro cell hc
        rcases List.mem_cons.1 hc with rfl | hc
        · exact hw.2 _ (by simp)
        · exact ih.1.2 cell hc
      · intro cell hc
        rcases List.mem_cons.1 hc with rfl | hc
        · simp
        · rcases ih.2 cell hc with h | h
          · exact .inl h
          · exact .inr (by simp [h])

theorem filter_wf (a : Nat) (m : Memory) (hw : m.wf) :
    Memory.wf (m.filter (fun cell => cell.1 != a)) :=
  ⟨List.Pairwise.sublist (List.Sublist.map _ List.filter_sublist) hw.1,
    fun cell hc => hw.2 cell (List.mem_of_mem_filter hc)⟩

/-- A write keeps the canonical form. -/
theorem write_wf (m : Memory) (a : Nat) (v : Byte) (hw : m.wf) : (m.write a v).wf := by
  unfold Memory.write
  by_cases hv : v = Memory.unlisted
  · simpa only [hv, if_true] using filter_wf a m hw
  · simp only [hv, if_false]
    exact (insert_wf a v hv _ (filter_wf a m hw) (by simp)).1

/-- A cell of a canonical memory is what its index reads as. -/
theorem read_of_mem : ∀ m : Memory, m.wf → ∀ cell ∈ m, m.read cell.1 = cell.2
  | (x, u) :: rest, hw, cell, hc => by
    have hw' : Memory.wf rest := ⟨by have := hw.1; simp_all, fun c h => hw.2 c (by simp [h])⟩
    rcases List.mem_cons.1 hc with rfl | hc
    · simp [Memory.read]
    · have hlt : x < cell.1 := by
        have := hw.1
        simp only [List.map_cons, List.pairwise_cons] at this
        exact this.1 _ (List.mem_map_of_mem hc)
      simp only [Memory.read, Nat.ne_of_lt hlt, if_false]
      exact read_of_mem rest hw' cell hc

/-- An index of no cell reads as the unlisted value. -/
theorem read_of_not_mem : ∀ (m : Memory) (a : Nat), (∀ cell ∈ m, cell.1 ≠ a) → m.read a = Memory.unlisted
  | [], _, _ => rfl
  | (x, u) :: rest, a, h => by
    simp only [Memory.read, h (x, u) (by simp), if_false]
    exact read_of_not_mem rest a (fun cell hc => h cell (by simp [hc]))

/-- Canonical memories that read alike everywhere are equal. -/
theorem memory_ext : ∀ m m' : Memory, m.wf → m'.wf → (∀ a, m.read a = m'.read a) → m = m'
  | [], [], _, _, _ => rfl
  | [], (x, u) :: rest, _, hw', h => by
    have := h x
    simp only [Memory.read, if_true] at this
    exact absurd this.symm (hw'.2 (x, u) (by simp))
  | (x, u) :: rest, [], hw, _, h => by
    have := h x
    simp only [Memory.read, if_true] at this
    exact absurd this (hw.2 (x, u) (by simp))
  | (x, u) :: rest, (y, v) :: rest', hw, hw', h => by
    have tail : ∀ {z : Nat} {w : Byte} {l : Memory}, Memory.wf ((z, w) :: l) →
        Memory.wf l ∧ ∀ cell ∈ l, z < cell.1 := by
      intro z w l hl
      have hp := hl.1
      simp only [List.map_cons, List.pairwise_cons] at hp
      exact ⟨⟨hp.2, fun cell hc => hl.2 cell (by simp [hc])⟩,
        fun cell hc => hp.1 _ (List.mem_map_of_mem hc)⟩
    obtain ⟨hr, hlt⟩ := tail hw
    obtain ⟨hr', hlt'⟩ := tail hw'
    have hxy : x = y := by
      rcases Nat.lt_trichotomy x y with hc | hc | hc
      · have e := h x
        rw [read_of_not_mem ((y, v) :: rest') x
          (fun cell hm => by rcases List.mem_cons.1 hm with rfl | hm
                             · exact (Nat.ne_of_lt hc).symm
                             · have := hlt' cell hm; omega)] at e
        simp only [Memory.read, if_true] at e
        exact absurd e (hw.2 (x, u) (by simp))
      · exact hc
      · have e := h y
        rw [read_of_not_mem ((x, u) :: rest) y
          (fun cell hm => by rcases List.mem_cons.1 hm with rfl | hm
                             · exact (Nat.ne_of_lt hc).symm
                             · have := hlt cell hm; omega)] at e
        simp only [Memory.read, if_true] at e
        exact absurd e.symm (hw'.2 (y, v) (by simp))
    subst hxy
    have huv : u = v := by simpa [Memory.read] using h x
    subst huv
    have := memory_ext rest rest' hr hr' (fun a => by
      have e := h a
      by_cases hxa : x = a
      · subst hxa
        rw [read_of_not_mem rest x (fun cell hm => by have := hlt cell hm; omega),
          read_of_not_mem rest' x (fun cell hm => by have := hlt' cell hm; omega)]
      · simpa [Memory.read, hxa] using e)
    rw [this]

/-- The reset buffer is canonical. -/
theorem resetBuf_wf (n : Nat) : (resetBuf n).wf := by
  refine ⟨?_, ?_⟩
  · unfold resetBuf
    simp only [List.map_map, List.pairwise_map, Function.comp]
    exact List.pairwise_lt_range.imp (by omega)
  · intro cell hc
    simp only [resetBuf, List.mem_map] at hc
    obtain ⟨i, -, rfl⟩ := hc
    simp [Memory.unlisted]

theorem read_cells_hit (f : Nat → Nat) (hf : ∀ i j, f i = f j → i = j) (v : Byte) (i : Nat) :
    ∀ l : List Nat, i ∈ l → Memory.read (l.map (fun j => (f j, v))) (f i) = v
  | j :: rest, hi => by
    by_cases h : f j = f i
    · simp [Memory.read, h]
    · have hi' : i ∈ rest := by
        rcases List.mem_cons.1 hi with rfl | hi
        · exact absurd rfl h
        · exact hi
      simp only [List.map_cons, Memory.read, h, if_false]
      exact read_cells_hit f hf v i rest hi'

theorem read_cells_miss (f : Nat → Nat) (v : Byte) (a : Nat) :
    ∀ l : List Nat, (∀ i ∈ l, f i ≠ a) → Memory.read (l.map (fun j => (f j, v))) a = Memory.unlisted
  | [], _ => rfl
  | j :: rest, h => by
    simp only [List.map_cons, Memory.read, h j (by simp), if_false]
    exact read_cells_miss f v a rest (fun i hi => h i (by simp [hi]))

/-- What the reset buffer reads as at the start of a record (R30). -/
theorem read_resetBuf_base (n i : Nat) (hi : i < n) : (resetBuf n).read (base i) = 0xE0 :=
  read_cells_hit (fun i => 4 + 4 * i) (by intros; omega) 0xE0 i _ (List.mem_range.2 hi)

/-- What the reset buffer reads as anywhere else (R30). -/
theorem read_resetBuf_other (n a : Nat) (ha : ∀ i, i < n → base i ≠ a) : (resetBuf n).read a = 0 :=
  read_cells_miss _ _ _ _ (fun i hi => ha i (List.mem_range.1 hi))

@[simp] theorem readBytes_length (m : Memory) (a n : Nat) : (m.readBytes a n).length = n := by
  simp [Memory.readBytes]

theorem readBytes_getElem (m : Memory) (a n k : Nat) (h : k < (m.readBytes a n).length) :
    (m.readBytes a n)[k] = m.read (a + k) := by
  simp [Memory.readBytes]

theorem readBytes_four (m : Memory) (a : Nat) :
    m.readBytes a 4 = [m.read a, m.read (a + 1), m.read (a + 2), m.read (a + 3)] := rfl

end Sys2Proof.Machine
end

