-- ==== Sys2Proof/Laws/State.lean ====
section
/-! SUPPORT. What each named update of the state does to each field. -/

namespace Sys2Proof.Machine

section Respond
variable (s : State) (st : Status) (p : List Byte)

@[simp] theorem respond_col : (s.respond st p).col = s.col := rfl
@[simp] theorem respond_buf : (s.respond st p).buf = s.buf := rfl
@[simp] theorem respond_gbright : (s.respond st p).gbright = s.gbright := rfl
@[simp] theorem respond_gmode : (s.respond st p).gmode = s.gmode := rfl
@[simp] theorem respond_offR : (s.respond st p).offR = s.offR := rfl
@[simp] theorem respond_offG : (s.respond st p).offG = s.offG := rfl
@[simp] theorem respond_offB : (s.respond st p).offB = s.offB := rfl
@[simp] theorem respond_phase : (s.respond st p).phase = s.phase := rfl
@[simp] theorem respond_cfgerr : (s.respond st p).cfgerr = s.cfgerr := rfl
@[simp] theorem respond_host : (s.respond st p).host = s.host := rfl
@[simp] theorem respond_sink : (s.respond st p).sink = s.sink := rfl
@[simp] theorem respond_rsp : (s.respond st p).rsp = s.rsp ++ [⟨st, p⟩] := rfl
@[simp] theorem respond_snk : (s.respond st p).snk = s.snk := rfl
@[simp] theorem respond_nLeds : (s.respond st p).nLeds = s.nLeds := rfl
@[simp] theorem respond_colour (i : Nat) : (s.respond st p).colour i = s.colour i := rfl
@[simp] theorem respond_record (i : Nat) : (s.respond st p).record i = s.record i := rfl

end Respond

section TakeOffer
variable (rest : List HostEvent) (s : State)

@[simp] theorem takeOffer_col : (takeOffer rest s).col = s.col := rfl
@[simp] theorem takeOffer_buf : (takeOffer rest s).buf = s.buf := rfl
@[simp] theorem takeOffer_gbright : (takeOffer rest s).gbright = s.gbright := rfl
@[simp] theorem takeOffer_gmode : (takeOffer rest s).gmode = s.gmode := rfl
@[simp] theorem takeOffer_offR : (takeOffer rest s).offR = s.offR := rfl
@[simp] theorem takeOffer_offG : (takeOffer rest s).offG = s.offG := rfl
@[simp] theorem takeOffer_offB : (takeOffer rest s).offB = s.offB := rfl
@[simp] theorem takeOffer_phase : (takeOffer rest s).phase = s.phase := rfl
@[simp] theorem takeOffer_cfgerr : (takeOffer rest s).cfgerr = s.cfgerr := rfl
@[simp] theorem takeOffer_host : (takeOffer rest s).host = rest := rfl
@[simp] theorem takeOffer_sink : (takeOffer rest s).sink = s.sink := rfl
@[simp] theorem takeOffer_rsp : (takeOffer rest s).rsp = s.rsp := rfl
@[simp] theorem takeOffer_snk : (takeOffer rest s).snk = s.snk := rfl
@[simp] theorem takeOffer_nLeds : (takeOffer rest s).nLeds = s.nLeds := rfl

end TakeOffer

section SetCfgErr
variable (s : State)

@[simp] theorem setCfgErr_col : (setCfgErr s).col = s.col := rfl
@[simp] theorem setCfgErr_buf : (setCfgErr s).buf = s.buf := rfl
@[simp] theorem setCfgErr_gbright : (setCfgErr s).gbright = s.gbright := rfl
@[simp] theorem setCfgErr_gmode : (setCfgErr s).gmode = s.gmode := rfl
@[simp] theorem setCfgErr_offR : (setCfgErr s).offR = s.offR := rfl
@[simp] theorem setCfgErr_offG : (setCfgErr s).offG = s.offG := rfl
@[simp] theorem setCfgErr_offB : (setCfgErr s).offB = s.offB := rfl
@[simp] theorem setCfgErr_phase : (setCfgErr s).phase = s.phase := rfl
@[simp] theorem setCfgErr_cfgerr : (setCfgErr s).cfgerr = true := rfl
@[simp] theorem setCfgErr_host : (setCfgErr s).host = s.host := rfl
@[simp] theorem setCfgErr_sink : (setCfgErr s).sink = s.sink := rfl
@[simp] theorem setCfgErr_rsp : (setCfgErr s).rsp = s.rsp := rfl
@[simp] theorem setCfgErr_snk : (setCfgErr s).snk = s.snk := rfl

end SetCfgErr

section Render
variable (s : State) (i : Nat)

@[simp] theorem render_col : (render s i).col = s.col := rfl
@[simp] theorem render_gbright : (render s i).gbright = s.gbright := rfl
@[simp] theorem render_gmode : (render s i).gmode = s.gmode := rfl
@[simp] theorem render_offR : (render s i).offR = s.offR := rfl
@[simp] theorem render_offG : (render s i).offG = s.offG := rfl
@[simp] theorem render_offB : (render s i).offB = s.offB := rfl
@[simp] theorem render_phase : (render s i).phase = s.phase := rfl
@[simp] theorem render_cfgerr : (render s i).cfgerr = s.cfgerr := rfl
@[simp] theorem render_host : (render s i).host = s.host := rfl
@[simp] theorem render_sink : (render s i).sink = s.sink := rfl
@[simp] theorem render_rsp : (render s i).rsp = s.rsp := rfl
@[simp] theorem render_snk : (render s i).snk = s.snk := rfl
@[simp] theorem render_nLeds : (render s i).nLeds = s.nLeds := rfl

end Render

section HostReset
variable (s : State)

@[simp] theorem hostReset_col : (hostReset s).col = List.replicate s.nLeds Colour.off := rfl
@[simp] theorem hostReset_buf : (hostReset s).buf = resetBuf s.nLeds := rfl
@[simp] theorem hostReset_gbright : (hostReset s).gbright = 255 := rfl
@[simp] theorem hostReset_gmode : (hostReset s).gmode = .tableCorrection := rfl
@[simp] theorem hostReset_offR : (hostReset s).offR = .three := rfl
@[simp] theorem hostReset_offG : (hostReset s).offG = .two := rfl
@[simp] theorem hostReset_offB : (hostReset s).offB = .one := rfl
@[simp] theorem hostReset_phase : (hostReset s).phase = .config := rfl
@[simp] theorem hostReset_cfgerr : (hostReset s).cfgerr = false := rfl
@[simp] theorem hostReset_host : (hostReset s).host = s.host := rfl
@[simp] theorem hostReset_sink : (hostReset s).sink = s.sink := rfl
@[simp] theorem hostReset_rsp : (hostReset s).rsp = s.rsp := rfl
@[simp] theorem hostReset_snk : (hostReset s).snk = s.snk := rfl
@[simp] theorem hostReset_nLeds : (hostReset s).nLeds = s.nLeds := List.length_replicate

end HostReset

end Sys2Proof.Machine
end

