-- ==== Sys2Proof/Laws/Render.lean ====
section
/-! SUPPORT. The per-LED re-encode, byte by byte (spec/43_frame_encoder.md R101, R102), and the loops over it. -/

namespace Sys2Proof.Machine

/-! ## The LED count and the stored colours -/

@[simp] theorem nLeds_set (s : State) (i : Nat) (c : Colour) :
    State.nLeds { s with col := s.col.set i c } = s.nLeds := by simp [State.nLeds]

@[simp] theorem render_colour (s : State) (i j : Nat) : (render s i).colour j = s.colour j := rfl

@[simp] theorem render_encoded (s : State) (i j : Nat) : (render s i).encoded j = s.encoded j := rfl

/-- The stored colours after `COL[i] <- c`. -/
theorem colour_set (s : State) (i : Nat) (c : Colour) (j : Nat) (hi : i < s.nLeds) :
    State.colour { s with col := s.col.set i c } j = if i = j then c else s.colour j := by
  unfold State.nLeds at hi
  unfold State.colour
  by_cases h : i = j
  · subst h
    simp [List.getD_eq_getElem?_getD, hi]
  · simp [List.getD_eq_getElem?_getD, List.getElem?_set_ne h, h]

/-! ## One record -/

/-- `encode` gives four bytes. -/
@[simp] theorem encodeRecord_length (k : Corrector) (c : Colour) (gb : Byte) (m : GMode) (r g b : Slot) :
    (encodeRecord k c gb m r g b).length = 4 := by simp [encodeRecord]

/-- The first byte of `encode` is the brightness byte, whatever the offsets. -/
theorem encodeRecord_head (k : Corrector) (c : Colour) (gb : Byte) (m : GMode) (r g b : Slot) :
    (encodeRecord k c gb m r g b)[0]? = some (brightnessByte (effL gb c.l)) := by
  cases r <;> cases g <;> cases b <;> rfl

/-- `render(i)` leaves every byte outside LED `i`'s record alone. -/
theorem read_render_other (s : State) (i a : Nat) (h : a < base i ∨ base i + 4 ≤ a) :
    (render s i).buf.read a = s.buf.read a := by
  have hR : s.offR.index = 1 ∨ s.offR.index = 2 ∨ s.offR.index = 3 := by cases s.offR <;> simp [Slot.index]
  have hG : s.offG.index = 1 ∨ s.offG.index = 2 ∨ s.offG.index = 3 := by cases s.offG <;> simp [Slot.index]
  have hB : s.offB.index = 1 ∨ s.offB.index = 2 ∨ s.offB.index = 3 := by cases s.offB <;> simp [Slot.index]
  simp only [render, read_write]
  rw [if_neg (by omega), if_neg (by omega), if_neg (by omega), if_neg (by omega)]

/-- `render(i)` writes `encode` of LED `i` (R102). -/
theorem record_render (s : State) (i : Nat) (h : s.offsetsOk) : (render s i).record i = s.encoded i := by
  obtain ⟨h1, h2, h3⟩ := h
  revert h1 h2 h3
  simp only [State.record, readBytes_four, State.encoded, encodeRecord, render, read_write]
  cases s.offR <;> cases s.offG <;> cases s.offB <;> simp [Slot.index]

/-- `render(i)` puts the brightness byte first, whatever the offsets. -/
theorem read_render_base (s : State) (i : Nat) :
    (render s i).buf.read (base i) = brightnessByte (effL s.gbright (s.colour i).l) := by
  have hR : s.offR.index ≠ 0 := by cases s.offR <;> simp [Slot.index]
  have hG : s.offG.index ≠ 0 := by cases s.offG <;> simp [Slot.index]
  have hB : s.offB.index ≠ 0 := by cases s.offB <;> simp [Slot.index]
  simp only [render, read_write]
  rw [if_neg (by omega), if_neg (by omega), if_neg (by omega), if_pos trivial]
  rfl

/-- `render(i)` leaves the records of the other LEDs alone. -/
theorem record_render_other (s : State) (i j : Nat) (h : i ≠ j) : (render s i).record j = s.record j := by
  simp only [State.record, readBytes_four]
  rw [read_render_other, read_render_other, read_render_other, read_render_other] <;>
    simp only [base] <;> omega

theorem render_wf (s : State) (i : Nat) (h : s.buf.wf) : (render s i).buf.wf :=
  write_wf _ _ _ (write_wf _ _ _ (write_wf _ _ _ (write_wf _ _ _ h)))

/-! ## Every record -/

/-- The re-encode of the LEDs of a list, whatever the list: only BUF changes, the canonical form is kept, every listed
record is `encode`, and nothing outside the listed records changes. -/
theorem foldl_render (l : List Nat) : ∀ s : State,
    l.foldl render s = { s with buf := (l.foldl render s).buf } ∧
    (s.buf.wf → (l.foldl render s).buf.wf) ∧
    (s.offsetsOk → ∀ i ∈ l, (l.foldl render s).record i = s.encoded i) ∧
    (∀ i ∈ l, (l.foldl render s).buf.read (base i) = brightnessByte (effL s.gbright (s.colour i).l)) ∧
    (∀ a, (∀ i ∈ l, a < base i ∨ base i + 4 ≤ a) → (l.foldl render s).buf.read a = s.buf.read a) := by
  induction l with
  | nil => intro s; simp
  | cons j rest ih =>
    intro s
    obtain ⟨h1, h2, h3, h4, h5⟩ := ih (render s j)
    simp only [List.foldl_cons]
    have outside : ∀ i, i ∉ rest → ∀ a, base i ≤ a → a < base i + 4 →
        ((rest.foldl render (render s j)).buf.read a = (render s j).buf.read a) := by
      intro i hi a ha ha'
      refine h5 a (fun i' hi' => ?_)
      have : i ≠ i' := fun e => hi (e ▸ hi')
      simp only [base] at *
      omega
    refine ⟨?_, fun hw => h2 (render_wf s j hw), ?_, ?_, ?_⟩
    · rw [h1]; rfl
    · intro hok i hi
      by_cases hr : i ∈ rest
      · rw [h3 hok i hr]; rfl
      · have : i = j := by simpa [hr] using hi
        subst this
        rw [← record_render s i hok]
        simp only [State.record, readBytes_four]
        rw [outside i hr _ (by omega) (by omega), outside i hr _ (by omega) (by omega),
          outside i hr _ (by omega) (by omega), outside i hr _ (by omega) (by omega)]
    · intro i hi
      by_cases hr : i ∈ rest
      · rw [h4 i hr]; rfl
      · have : i = j := by simpa [hr] using hi
        subst this
        rw [outside i hr _ (by omega) (by omega), read_render_base]
    · intro a ha
      rw [h5 a (fun i hi => ha i (by simp [hi])), read_render_other s j a (ha j (by simp))]

/-- `for i = 0 .. N_LEDS-1: render(i)` changes only BUF. -/
theorem renderAll_eq (s : State) : renderAll s = { s with buf := (renderAll s).buf } := (foldl_render _ s).1

theorem renderAll_wf (s : State) (h : s.buf.wf) : (renderAll s).buf.wf := (foldl_render _ s).2.1 h

/-- It writes `encode` of every LED. -/
theorem record_renderAll (s : State) (h : s.offsetsOk) (i : Nat) (hi : i < s.nLeds) :
    (renderAll s).record i = s.encoded i := (foldl_render _ s).2.2.1 h i (List.mem_range.2 hi)

theorem read_renderAll_base (s : State) (i : Nat) (hi : i < s.nLeds) :
    (renderAll s).buf.read (base i) = brightnessByte (effL s.gbright (s.colour i).l) :=
  (foldl_render _ s).2.2.2.1 i (List.mem_range.2 hi)

/-- It leaves the header and the footer alone. -/
theorem read_renderAll_other (s : State) (a : Nat) (ha : a < base 0 ∨ base s.nLeds ≤ a) :
    (renderAll s).buf.read a = s.buf.read a := by
  refine (foldl_render _ s).2.2.2.2 a (fun i hi => ?_)
  have := List.mem_range.1 hi
  simp only [base] at *
  omega

/-! ## Storing colours -/

theorem store_eq (s : State) (i : Nat) (c : Colour) :
    store s i c = { s with col := s.col.set i c, buf := (store s i c).buf } := rfl

@[simp] theorem store_nLeds (s : State) (i : Nat) (c : Colour) : (store s i c).nLeds = s.nLeds := by
  simp [store, State.nLeds]

/-- The loop of SET_COLOURS and CLEAR from LED `j` on: only COL and BUF change, LEDs `j, j+1, ...` take the listed
colours, their records are `encode`, and nothing else of COL or BUF changes. -/
theorem storeFrom_spec : ∀ (cs : List Colour) (s : State) (j : Nat), j + cs.length ≤ s.nLeds →
    storeFrom s j cs = { s with col := (storeFrom s j cs).col, buf := (storeFrom s j cs).buf } ∧
    (storeFrom s j cs).nLeds = s.nLeds ∧
    (s.buf.wf → (storeFrom s j cs).buf.wf) ∧
    (∀ i, i < j ∨ j + cs.length ≤ i → (storeFrom s j cs).colour i = s.colour i) ∧
    (∀ i, j ≤ i → i < j + cs.length → (storeFrom s j cs).colour i = cs.getD (i - j) Colour.off) ∧
    (s.offsetsOk → ∀ i, j ≤ i → i < j + cs.length →
      (storeFrom s j cs).record i = (storeFrom s j cs).encoded i) ∧
    (∀ i, j ≤ i → i < j + cs.length →
      (storeFrom s j cs).buf.read (base i)
        = brightnessByte (effL s.gbright ((storeFrom s j cs).colour i).l)) ∧
    (∀ a, a < base j ∨ base (j + cs.length) ≤ a → (storeFrom s j cs).buf.read a = s.buf.read a)
  | [], s, j, _ => by
    refine ⟨rfl, rfl, id, fun _ _ => rfl, ?_, ?_, ?_, fun _ _ => rfl⟩ <;> intros <;> simp at * <;> omega
  | c :: cs, s, j, hlen => by
    have hlen' : j + 1 + cs.length ≤ (store s j c).nLeds := by simp at hlen ⊢; omega
    have hj : j < s.nLeds := by simp at hlen; omega
    obtain ⟨h1, h2, h3, h4, h5, h6, h7, h8⟩ := storeFrom_spec cs (store s j c) (j + 1) hlen'
    have hcol : ∀ i, (store s j c).colour i = if j = i then c else s.colour i :=
      fun i => colour_set s j c i hj
    have e : storeFrom s j (c :: cs) = storeFrom (store s j c) (j + 1) cs := rfl
    rw [e]
    have hl : (c :: cs).length = cs.length + 1 := rfl
    refine ⟨?_, ?_, ?_, ?_, ?_, ?_, ?_, ?_⟩
    · rw [h1]; rfl
    · rw [h2, store_nLeds]
    · exact fun hw => h3 (render_wf _ j hw)
    · intro i hi
      rw [h4 i (by omega), hcol, if_neg (by omega)]
    · intro i h h'
      by_cases hij : i = j
      · subst hij
        rw [h4 i (by omega), hcol]
        simp
      · rw [h5 i (by omega) (by omega)]
        obtain ⟨k, rfl⟩ : ∃ k, i = j + 1 + k := ⟨i - (j + 1), by omega⟩
        rw [show j + 1 + k - j = k + 1 by omega, show j + 1 + k - (j + 1) = k by omega]
        simp
    · intro hok i h h'
      by_cases hij : i = j
      · subst hij
        have hc := h4 i (by omega)
        have hr : (storeFrom (store s i c) (i + 1) cs).record i = (store s i c).record i := by
          simp only [State.record, readBytes_four]
          rw [h8, h8, h8, h8] <;> simp only [base] <;> omega
        rw [hr, State.encoded, hc, h1]
        exact record_render { s with col := s.col.set i c } i hok
      · exact h6 hok i (by omega) (by omega)
    · intro i h h'
      by_cases hij : i = j
      · subst hij
        rw [h8 _ (by simp only [base]; omega), h4 i (by omega)]
        exact read_render_base { s with col := s.col.set i c } i
      · exact h7 i (by omega) (by omega)
    · intro a ha
      rw [h8 a (by simp only [base] at *; omega)]
      exact read_render_other _ j a (by simp only [base] at *; omega)

end Sys2Proof.Machine
end

