-- ==== Sys2Proof/Laws/Outcome.lean ====
section
/-! SUPPORT. The shared operations' outcomes: the phase check, responses, the sink's offer, positions, modes and order
strings. -/

namespace Sys2Proof.Machine

/-! ## The phase check and responses -/

theorem inPhase_of_eq {p : Phase} {s : State} (h : s.phase = p) (go : Result) : inPhase p s go = go := if_pos h

theorem inPhase_of_ne {p : Phase} {s : State} (h : s.phase ≠ p) (go : Result) :
    inPhase p s go = .next (s.respond .errPhase []) := if_neg h

/-- Everything the phase check can do: the command goes on in its phase, or is answered ERR_PHASE. -/
theorem inPhase_cases {p : Phase} {s : State} {go out : Result} (h : inPhase p s go = out) :
    (s.phase = p ∧ go = out) ∨ (s.phase ≠ p ∧ out = .next (s.respond .errPhase [])) := by
  by_cases hp : s.phase = p
  · exact .inl ⟨hp, by rw [← h, inPhase_of_eq hp]⟩
  · exact .inr ⟨hp, by rw [← h, inPhase_of_ne hp]⟩

@[simp] theorem reply_eq_next (p : List Byte) (s t : State) : reply p s = .next t ↔ s.respond .ok p = t := by
  simp [reply]

@[simp] theorem raise_eq_next (st : Status) (s t : State) : raise st s = .next t ↔ s.respond st [] = t := by
  simp [raise]

/-! ## The sink's offer -/

theorem sinkOffer_nil {s : State} (h : s.sink = []) : sinkOffer s = none := by simp [sinkOffer, h]

theorem sinkOffer_cons {s : State} {a : SinkAnswer} {later : List SinkAnswer} (h : s.sink = a :: later) :
    sinkOffer s = some (a, { s with sink := later, snk := s.snk ++ [⟨s.frame, a⟩] }) := by simp [sinkOffer, h]

@[simp] theorem frame_length (s : State) : s.frame.length = frameLen s.nLeds := by simp [State.frame]

/-! ## Positions -/

/-- A position in `0 .. N_LEDS-1` names that LED. -/
theorem posIndex_in {n : Nat} {pos : BitVec 32} (h : 0 ≤ pos.toInt) (h' : pos.toInt < n) :
    posIndex n pos = some pos.toInt.toNat := if_pos ⟨h, h'⟩

/-- A negative position, or one of `N_LEDS` or more, names nothing. -/
theorem posIndex_out {n : Nat} {pos : BitVec 32} (h : pos.toInt < 0 ∨ (n : Int) ≤ pos.toInt) :
    posIndex n pos = none := if_neg (by omega)

theorem posIndex_lt {n : Nat} {pos : BitVec 32} {i : Nat} (h : posIndex n pos = some i) :
    i < n ∧ pos.toInt = i := by
  unfold posIndex at h
  split at h
  · simp only [Option.some.injEq] at h
    omega
  · cases h

/-! ## Gamma modes -/

@[simp] theorem gmodeOf_code (g : GMode) : gmodeOf g.code = some g := by cases g <;> rfl

theorem gmodeOf_eq_some {b : Byte} {g : GMode} (h : gmodeOf b = some g) : b = g.code := by
  unfold gmodeOf at h
  split at h
  · simp_all [GMode.code]; rw [← h]
  · split at h
    · simp_all [GMode.code]; rw [← h]
    · split at h
      · simp_all [GMode.code]; rw [← h]
      · cases h

theorem gmodeOf_reserved {b : Byte} (h : 2 < b.toNat) : gmodeOf b = none := by
  have h0 : b ≠ 0 := by rintro rfl; simp at h
  have h1 : b ≠ 1 := by rintro rfl; simp at h
  have h2 : b ≠ 2 := by rintro rfl; simp at h
  rw [gmodeOf, if_neg h0, if_neg h1, if_neg h2]

/-! ## Order strings -/

theorem validate_missing {str : List Byte} (h : (str.any isR && str.any isG && str.any isB) = false) :
    validate str = .missing := by simp [validate, h]

theorem validate_malformed {str : List Byte} (h : (str.any isR && str.any isG && str.any isB) = true)
    (hl : str.length ≠ 3) : validate str = .malformed := by
  unfold validate
  rw [if_pos h, if_neg hl]

theorem validate_valid {str : List Byte} (h : (str.any isR && str.any isG && str.any isB) = true)
    (hl : str.length = 3) :
    validate str = .valid (slotAfter (str.findIdx isR)) (slotAfter (str.findIdx isG))
      (slotAfter (str.findIdx isB)) := by
  unfold validate
  rw [if_pos h, if_pos hl]

/-- A character is at most one of the three letters (R93). -/
theorem letters_disjoint (ch : Byte) :
    (isR ch = true → isG ch = false ∧ isB ch = false) ∧ (isG ch = true → isB ch = false) := by
  revert ch
  decide +kernel

theorem slotAfter_inj {i j : Nat} (hi : i < 3) (hj : j < 3) (h : slotAfter i = slotAfter j) : i = j := by
  match i, j, hi, hj with
  | 0, 0, _, _ => rfl
  | 1, 1, _, _ => rfl
  | 2, 2, _, _ => rfl
  | 0, 1, _, _ => cases h
  | 0, 2, _, _ => cases h
  | 1, 0, _, _ => cases h
  | 1, 2, _, _ => cases h
  | 2, 0, _, _ => cases h
  | 2, 1, _, _ => cases h

theorem findIdx_lt {p : Byte → Bool} {str : List Byte} (h : str.any p = true) : str.findIdx p < str.length :=
  List.findIdx_lt_length.2 (by simpa using h)

/-- Two different letters stand at different places. -/
theorem findIdx_ne {p q : Byte → Bool} {str : List Byte} (hpq : ∀ ch, p ch = true → q ch = false)
    (hp : str.any p = true) : str.findIdx p ≠ str.findIdx q := by
  intro h
  have hlt := findIdx_lt hp
  have h1 := List.findIdx_getElem (p := p) (w := hlt)
  have h2 := List.findIdx_getElem (p := q) (xs := str) (w := h ▸ hlt)
  simp only [← h] at h2
  rw [hpq _ h1] at h2
  cases h2

/-- Everything `validate` can answer (R94, R95). -/
theorem validate_eq_valid {str : List Byte} {r g b : Slot} (h : validate str = .valid r g b) :
    (str.any isR && str.any isG && str.any isB) = true ∧ str.length = 3 ∧ r = slotAfter (str.findIdx isR) ∧
      g = slotAfter (str.findIdx isG) ∧ b = slotAfter (str.findIdx isB) := by
  unfold validate at h
  split at h
  · split at h
    · simp_all
    · cases h
  · cases h

/-- The offsets of a valid string are distinct (R29, R94). -/
theorem validate_distinct {str : List Byte} {r g b : Slot} (h : validate str = .valid r g b) :
    r ≠ g ∧ r ≠ b ∧ g ≠ b := by
  obtain ⟨hall, hl, rfl, rfl, rfl⟩ := validate_eq_valid h
  simp only [Bool.and_eq_true] at hall
  obtain ⟨⟨hr, hg⟩, hb⟩ := hall
  have lr := findIdx_lt hr
  have lg := findIdx_lt hg
  have lb := findIdx_lt hb
  rw [hl] at lr lg lb
  exact ⟨fun e => findIdx_ne (fun ch => fun h => ((letters_disjoint ch).1 h).1) hr (slotAfter_inj lr lg e),
    fun e => findIdx_ne (fun ch => fun h => ((letters_disjoint ch).1 h).2) hr (slotAfter_inj lr lb e),
    fun e => findIdx_ne (fun ch => (letters_disjoint ch).2) hg (slotAfter_inj lg lb e)⟩

end Sys2Proof.Machine
end

