-- ==== Sys2Proof/Laws/PerInstr.lean ====
section
/-! SUPPORT. The form of every command's packet (spec/30_encoding.md R51, R54): it begins with the command's opcode and
has a length its format allows. -/

namespace Sys2Proof.Laws.PacketForm

def Statement (i : Instr) : Prop :=
  (encode i).head? = some i.command.opcode ∧ i.command.format.lengthOk (encode i).length = true

theorem cfgOrder (str : List Byte) : Statement (.cfgOrder str) := ⟨rfl, rfl⟩
theorem cfgGamma (mode : Byte) : Statement (.cfgGamma mode) := ⟨rfl, rfl⟩
theorem init : Statement .init := ⟨rfl, rfl⟩
theorem setColour (pos : BitVec 32) (c : Colour) : Statement (.setColour pos c) := ⟨rfl, rfl⟩
theorem setColours (e : List Colour) : Statement (.setColours e) := by
  refine ⟨rfl, ?_⟩
  simp [encode, Instr.operandBytes, Instr.command, Command.format, Format.lengthOk]
theorem getColour (pos : BitVec 32) : Statement (.getColour pos) := ⟨rfl, rfl⟩
theorem snapshot : Statement .snapshot := ⟨rfl, rfl⟩
theorem setBrightness (v : Byte) : Statement (.setBrightness v) := ⟨rfl, rfl⟩
theorem getBrightness : Statement .getBrightness := ⟨rfl, rfl⟩
theorem clear : Statement .clear := ⟨rfl, rfl⟩
theorem update : Statement .update := ⟨rfl, rfl⟩
theorem blend (o t : Colour) (q : BitVec 16) : Statement (.blend o t q) := ⟨rfl, rfl⟩

end Sys2Proof.Laws.PacketForm
end

