-- ==== Sys2Proof/Laws/Step.lean ====
section
/-! SUPPORT. Everything a step can do. -/

namespace Sys2Proof.Machine

/-- A step that answers a next state did nothing, reset the block, answered an illegal packet, or ran a command. -/
theorem step_cases {s t : State} (h : step s = .next t) :
    (s.host = [] ∧ t = s) ∨
    (∃ rest, s.host = .reset :: rest ∧ t = hostReset (takeOffer rest s)) ∨
    (∃ p rest e, s.host = .packet p :: rest ∧ decode p = .error e ∧
      t = (takeOffer rest s).respond .errIllegal []) ∨
    (∃ p rest i, s.host = .packet p :: rest ∧ decode p = .ok i ∧ exec i (takeOffer rest s) = .next t) := by
  unfold step at h
  split at h
  · rename_i hs
    exact .inl ⟨hs, by cases h; rfl⟩
  · rename_i rest hs
    exact .inr (.inl ⟨rest, hs, by cases h; rfl⟩)
  · rename_i p rest hs
    split at h
    · rename_i i hi
      exact .inr (.inr (.inr ⟨p, rest, i, hs, hi, h⟩))
    · rename_i e he
      exact .inr (.inr (.inl ⟨p, rest, e, hs, he, by
        simp only [answerIllegal, raise_eq_next] at h
        exact h.symm⟩))

end Sys2Proof.Machine
end

