-- ==== Sys2Proof/Tests/Slice0.lean ====
section
/-! SUPPORT. Tests against the examples and vectors of spec/95_test_vectors.md and the rules they come from, and a
witness for the hypotheses of every statement that has any. -/

namespace Sys2Proof.Tests

open Sys2Proof Sys2Proof.Machine

/-! ## Small states -/

/-- A block of `n` LEDs straight after reset. -/
def configured (n : Nat) : State := State.resetFor n

/-- A block of `n` LEDs after reset and INIT. -/
def running (n : Nat) : State := { State.resetFor n with phase := .run }

/-- The same with one answer of the sink to come. -/
def answering (n acc : Nat) (err : Bool) : State := { running n with sink := [⟨acc, err⟩] }

/-- The next state of an outcome. -/
def nextOf : Result → Option State
  | .next t => some t
  | .fault _ => none
  | .refused _ => none

/-- What a test looks at: the last response's bytes and the frame. -/
def seen (out : Result) : Option (List Byte × List Byte) :=
  (nextOf out).map (fun t => ((t.rsp.getLast?.map Response.bytes).getD [], t.frame))

/-- The response's bytes of an outcome. -/
def response (out : Result) : Option (List Byte) := (seen out).map Prod.fst

/-- The frame after an outcome. -/
def frameAfter (out : Result) : Option (List Byte) := (seen out).map Prod.snd

/-! ## WellFormed -/

/-- The one check: a reserved gamma mode is refused (R57); the largest legal one is not. -/
theorem test_wellFormed_refuses_reserved_mode : ¬ WellFormed (.cfgGamma 3) ∧ WellFormed (.cfgGamma 2) := by decide

/-! ## Decoding: packets written out from R52 -/

theorem test_decode_cfgOrder : decode [0x01] = .ok (.cfgOrder []) := by decide
theorem test_decode_cfgGamma : decode [0x02, 0x01] = .ok (.cfgGamma 1) := by decide
theorem test_decode_init : decode [0x03] = .ok .init := by decide
theorem test_decode_setColour :
    decode [0x10, 0x80, 0x00, 0x00, 0x02, 0x0A, 0x14, 0x1E, 0xFF]
      = .ok (.setColour (BitVec.ofInt 32 (-2147483646)) ⟨10, 20, 30, 255⟩) := by decide
theorem test_decode_setColours :
    decode [0x11, 1, 2, 3, 4, 5, 6, 7, 8] = .ok (.setColours [⟨1, 2, 3, 4⟩, ⟨5, 6, 7, 8⟩]) := by decide
theorem test_decode_getColour : decode [0x12, 0x01, 0x02, 0x03, 0x04] = .ok (.getColour 0x01020304) := by decide
theorem test_decode_snapshot : decode [0x13] = .ok .snapshot := by decide
theorem test_decode_setBrightness : decode [0x14, 0x09] = .ok (.setBrightness 9) := by decide
theorem test_decode_getBrightness : decode [0x15] = .ok .getBrightness := by decide
theorem test_decode_clear : decode [0x16] = .ok .clear := by decide
theorem test_decode_update : decode [0x17] = .ok .update := by decide
theorem test_decode_blend :
    decode [0x20, 0, 0, 0, 0, 0xFF, 0x80, 0x40, 0xFF, 0x01, 0x2C]
      = .ok (.blend ⟨0, 0, 0, 0⟩ ⟨255, 128, 64, 255⟩ 300) := by decide

/-- The illegal packets of 95 section 8 that sit at a boundary of a rule. -/
theorem test_decode_illegal :
    ([[], [0x00], [0x04], [0x0F], [0x18], [0x1F], [0x21], [0xFF], [0x02], [0x02, 0x03], [0x02, 0xFF],
      [0x02, 0, 0], [0x03, 0], [0x10, 0, 0, 0, 0, 0, 0, 0], [0x10, 0, 0, 0, 0, 0, 0, 0, 0, 0],
      [0x11, 1], [0x11, 1, 2, 3, 4, 5], [0x12, 0, 0, 0], [0x14], [0x17, 0],
      [0x20, 0, 0, 0, 0, 0, 0, 0, 0, 0], [0x20, 0, 0, 0, 0, 0, 0, 0, 0, 0, 0, 0]] : List Packet).all
      (fun p => !(decode p).toOption.isSome) = true := by decide

/-- Table words: an opcode alone stands for a packet with operands of zeros. -/
theorem test_table_words :
    decodeTableWord 8 0x10 = some (.setColour 0 ⟨0, 0, 0, 0⟩) ∧ decodeTableWord 8 0x01 = some (.cfgOrder []) ∧
    decodeTableWord 8 0x11 = some (.setColours []) ∧ decodeTableWord 16 0x8014 = some (.setBrightness 128) ∧
    decodeTableWord 8 0x20 = some (.blend ⟨0, 0, 0, 0⟩ ⟨0, 0, 0, 0⟩ 0) ∧ decodeTableWord 8 0x04 = none := by decide

/-! ## Configuration commands -/

/-- S6 and R97: offsets of "gRb"; a failed string leaves the offsets and sets CFGERR. -/
theorem test_cfgOrder_offsets :
    (nextOf (exec (.cfgOrder [0x67, 0x52, 0x62]) (configured 1))).map (fun t => (t.offR, t.offG, t.offB, t.cfgerr))
      = some (.two, .one, .three, false) ∧
    (nextOf (exec (.cfgOrder [0x72, 0x67]) (configured 1))).map (fun t => (t.offR, t.offG, t.offB, t.cfgerr))
      = some (.three, .two, .one, true) := by decide

/-- 95 section 4: the codes of the two failures. -/
theorem test_cfgOrder_errors :
    response (exec (.cfgOrder []) (configured 1)) = some [0x01] ∧
    response (exec (.cfgOrder [0x78, 0x79, 0x7A, 0x72, 0x67, 0x62]) (configured 1)) = some [0x02] ∧
    response (exec (.cfgOrder [0x78]) (running 1)) = some [0x05] := by decide

/-- R90's example: `02 00` answered `00`, GMODE becomes NONE. -/
theorem test_cfgGamma_none :
    (nextOf (exec (.cfgGamma 0) (configured 1))).map State.gmode = some .noCorrection ∧
    response (exec (.cfgGamma 0) (configured 1)) = some [0x00] := by decide

/-- R104, R137: INIT reaches RUN, or is refused after a failure. -/
theorem test_init :
    (nextOf (exec .init (configured 1))).map State.phase = some .run ∧
    response (exec .init { configured 1 with cfgerr := true }) = some [0x07] ∧
    response (exec .init (running 1)) = some [0x05] := by decide

/-! ## Controller commands -/

/-- R106's example: `setc 1, #FF000080` with three LEDs. -/
theorem test_setColour_record :
    frameAfter (exec (.setColour 1 ⟨255, 0, 0, 128⟩) (running 3))
      = some [0, 0, 0, 0, 0xE0, 0, 0, 0, 0xF0, 0, 0, 0xFF, 0xE0, 0, 0, 0, 0, 0, 0] := by decide

/-- S9: positions -1 and `count` change nothing. -/
theorem test_setColour_out_of_range :
    frameAfter (exec (.setColour (BitVec.ofInt 32 (-1)) ⟨255, 255, 255, 255⟩) (running 3)) = some (running 3).frame ∧
    frameAfter (exec (.setColour 3 ⟨255, 255, 255, 255⟩) (running 3)) = some (running 3).frame := by decide

/-- S10: a list longer than the LED count. -/
theorem test_setColours_long_list :
    (nextOf (exec (.setColours [⟨1, 1, 1, 1⟩, ⟨2, 2, 2, 2⟩, ⟨3, 3, 3, 3⟩]) (running 2))).map State.col
      = some [⟨1, 1, 1, 1⟩, ⟨2, 2, 2, 2⟩] := by decide

/-- R108's example. -/
theorem test_setColours_records :
    frameAfter (exec (.setColours [⟨255, 0, 0, 255⟩, ⟨0, 255, 0, 255⟩]) (running 3))
      = some [0, 0, 0, 0, 0xFF, 0, 0, 0xFF, 0xFF, 0, 0xFF, 0, 0xE0, 0, 0, 0, 0, 0, 0] := by decide

/-- R110: the last LED, and a position past it. -/
theorem test_getColour :
    response (exec (.getColour 2) { running 3 with col := [⟨1, 2, 3, 4⟩, ⟨5, 6, 7, 8⟩, ⟨9, 10, 11, 12⟩] })
      = some [0x00, 9, 10, 11, 12] ∧
    response (exec (.getColour 3) { running 3 with col := [⟨1, 2, 3, 4⟩, ⟨5, 6, 7, 8⟩, ⟨9, 10, 11, 12⟩] })
      = some [0x00, 0, 0, 0, 0] := by decide

/-- R112: the colours in LED order. -/
theorem test_snapshot :
    response (exec .snapshot { running 2 with col := [⟨255, 0, 0, 255⟩, ⟨0, 255, 0, 254⟩] })
      = some [0x00, 255, 0, 0, 255, 0, 255, 0, 254] := by decide

/-- P2 of 95: order "rgb", no gamma, brightness 128. -/
theorem test_setBrightness_records :
    frameAfter (exec (.setBrightness 128)
        { running 2 with
          col := [⟨0x10, 0x20, 0x30, 0x40⟩, ⟨0x50, 0x60, 0x70, 0xFF⟩],
          gmode := .noCorrection, offR := .one, offG := .two, offB := .three })
      = some [0, 0, 0, 0, 0xE4, 0x10, 0x20, 0x30, 0xF0, 0x50, 0x60, 0x70, 0, 0, 0] := by decide

/-- R116's example. -/
theorem test_getBrightness :
    response (exec .getBrightness (running 1)) = some [0x00, 0xFF] ∧
    response (exec .getBrightness (configured 1)) = some [0x05] := by decide

/-- R118: CLEAR gives every LED Off and its record E0 00 00 00. -/
theorem test_clear :
    (nextOf (exec .clear { running 2 with col := [⟨1, 2, 3, 4⟩, ⟨5, 6, 7, 8⟩] })).map State.col
      = some [⟨0, 0, 0, 0⟩, ⟨0, 0, 0, 0⟩] ∧
    frameAfter (exec .clear { running 2 with buf := [(4, 0xFF), (7, 1), (8, 0xF0), (9, 3)] })
      = some [0, 0, 0, 0, 0xE0, 0, 0, 0, 0xE0, 0, 0, 0, 0, 0, 0] := by decide

/-- 95 section 7, rows 13 to 17: every kind of answer. -/
theorem test_update_statuses :
    response (exec .update (answering 3 19 false)) = some [0x00] ∧
    response (exec .update (answering 3 18 false)) = some [0x04] ∧
    response (exec .update (answering 3 20 false)) = some [0x04] ∧
    response (exec .update (answering 3 19 true)) = some [0x03] ∧
    response (exec .update (answering 3 5 true)) = some [0x03] := by decide

/-- R122: UPDATE straight after INIT offers the reset image. -/
theorem test_update_offers_reset_image :
    (nextOf (exec .update (answering 1 10 false))).map State.snk
      = some [⟨[0, 0, 0, 0, 0xE0, 0, 0, 0, 0, 0], ⟨10, false⟩⟩] := by decide

/-! ## BLEND (95 section 2) -/

theorem test_blend8_vectors :
    blend8 0 255 128 = 127 ∧ blend8 255 0 128 = 127 ∧ blend8 0 255 255 = 254 ∧ blend8 0 255 1 = 0 ∧
    blend8 255 0 1 = 254 ∧ blend8 0 1 255 = 0 ∧ blend8 1 0 1 = 0 ∧ blend8 10 20 77 = 13 ∧ blend8 20 10 77 = 16 ∧
    blend8 101 100 128 = 100 ∧ blend8 200 100 256 = 100 ∧ blend8 200 100 32767 = 100 ∧
    blend8 200 100 (BitVec.ofInt 16 (-1)) = 200 ∧ blend8 200 100 (BitVec.ofInt 16 (-32768)) = 200 := by decide

theorem test_blend_response :
    response (exec (.blend ⟨0x0A, 0xC8, 0x00, 0xFF⟩ ⟨0x14, 0x64, 0xFF, 0x00⟩ 77) (configured 1))
      = some [0x00, 0x0D, 0xA9, 0x4C, 0xB2] := by decide

/-! ## Gamma -/

/-- R84's closed form, over the integers: `T[i]` is 255 * (i/255)^2.8 rounded to nearest, since 2.8 is 14/5. It checks
every entry as typed in. -/
theorem test_defaultTable_is_the_curve :
    ∀ i : Byte,
      (2 * ((defaultTable i).toNat : Int) - 1) ^ 5 * 255 ^ 14 ≤ (i.toNat : Int) ^ 14 * 510 ^ 5 ∧
      (i.toNat : Int) ^ 14 * 510 ^ 5 < (2 * ((defaultTable i).toNat : Int) + 1) ^ 5 * 255 ^ 14 := by decide +kernel

/-- R84's spot values. -/
theorem test_defaultTable_spot_values :
    defaultTable 27 = 0 ∧ defaultTable 28 = 1 ∧ defaultTable 64 = 5 ∧ defaultTable 127 = 36 ∧ defaultTable 128 = 37 ∧
    defaultTable 131 = 39 ∧ defaultTable 200 = 129 ∧ defaultTable 254 = 252 ∧ defaultTable 255 = 255 := by decide

/-- The custom function G_x of 95 section 3. -/
def gX (c : Colour) : Colour := ⟨255 - c.r, c.g ^^^ 0xFF, c.l, 77⟩

/-- 95 section 3: the rows of G_x and of the default table, at brightness 255 and 100, order "bgr". -/
theorem test_gamma_rows :
    encodeRecord ⟨defaultTable, gX⟩ ⟨200, 100, 50, 128⟩ 255 .customCorrection .three .two .one
      = [0xF0, 0x80, 0x9B, 0x37] ∧
    encodeRecord ⟨defaultTable, gX⟩ ⟨200, 100, 50, 128⟩ 100 .customCorrection .three .two .one
      = [0xE6, 0x32, 0x9B, 0x37] ∧
    encodeRecord ⟨defaultTable, gX⟩ ⟨200, 100, 50, 128⟩ 255 .tableCorrection .three .two .one
      = [0xF0, 0x03, 0x13, 0x81] ∧
    encodeRecord ⟨defaultTable, gX⟩ ⟨200, 100, 50, 128⟩ 100 .noCorrection .three .two .one
      = [0xE6, 0x32, 0x64, 0xC8] := by decide

/-- 95 section 5: effective L and brightness byte. -/
theorem test_brightness_byte :
    (effL 254 1, brightnessByte (effL 255 247), brightnessByte (effL 255 8), brightnessByte (effL 200 100),
      brightnessByte (effL 127 255), brightnessByte (effL 0 255)) = (0, 0xFE, 0xE1, 0xE9, 0xEF, 0xE0) := by decide

/-- 95 section 6: FOOTER and LEN. -/
theorem test_frame_sizes :
    [1, 2, 3, 16, 17, 18, 33, 34, 144, 300].map (fun n => (footerLen n, frameLen n))
      = [(2, 10), (3, 15), (3, 19), (3, 71), (3, 75), (4, 80), (4, 140), (5, 145), (11, 591), (21, 1225)] := by decide

/-! ## Steps -/

/-- 95 section 9: decode before phase, in CONFIG; and a packet's step takes it from the port. -/
theorem test_step_priority :
    (nextOf (step { configured 1 with host := [.packet [0x10, 0x00]] })).map State.rsp = some [⟨.errIllegal, []⟩] ∧
    (nextOf (step { configured 1 with host := [.packet [0x16], .reset] })).map (fun t => (t.rsp, t.host))
      = some ([⟨.errPhase, []⟩], [.reset]) := by decide

/-- R151: a reset between commands. -/
theorem test_step_reset :
    (nextOf (step { running 2 with host := [.reset], col := [⟨1, 2, 3, 4⟩, ⟨5, 6, 7, 8⟩], gbright := 3 })).map
      (fun t => (t.col, t.gbright, t.phase, t.rsp)) = some ([⟨0, 0, 0, 0⟩, ⟨0, 0, 0, 0⟩], 255, .config, []) := by decide

/-- The first step from reset runs the placed instruction. -/
theorem test_fetch_word :
    (nextOf (step (State.reset.withFetchWord 8 0x03))).map State.phase = some .run := by decide

/-! ## Host text -/

/-- S1 and S2. -/
theorem test_hexParse :
    hexParse ['#', '0', '1', '0', '2', '0', '3', '0', '8'] = ⟨1, 2, 3, 8⟩ ∧
    hexParse ['#', 'f', 'F', '0', '0', '0', '0', '8', '0'] = ⟨255, 0, 0, 128⟩ ∧
    hexParse ['#', '1', '1', '2', '2', '3', '3'] = ⟨17, 34, 51, 255⟩ ∧
    hexParse [] = ⟨0, 0, 0, 255⟩ ∧ hexParse ['#', '1', '2', '3'] = ⟨0, 0, 0, 255⟩ := by decide

/-- R131: the contents of the description; that 0 and 17 are unpadded is the model's choice (log entry 13). -/
theorem test_describe :
    (describe ⟨255, 0, 17, 128⟩).r = ['2', '5', '5'] ∧ (describe ⟨255, 0, 17, 128⟩).g = ['0'] ∧
    (describe ⟨255, 0, 17, 128⟩).b = ['1', '7'] ∧ (describe ⟨255, 0, 17, 128⟩).l = ['1', '2', '8'] := by decide

/-- R106's and R64's lines: `SetC 1, #FF000080 ; x` and `blend Off,#FF8040FF, -5/256`. -/
theorem test_assemble :
    assemble ['S', 'e', 't', 'C', ' ', '1', ',', ' ', '#', 'F', 'F', '0', '0', '0', '0', '8', '0', ' ', ';', ' ', 'x']
      = some [0x10, 0, 0, 0, 1, 0xFF, 0, 0, 0x80] ∧
    assemble ['b', 'l', 'e', 'n', 'd', ' ', 'O', 'f', 'f', ',', '#', 'F', 'F', '8', '0', '4', '0', 'F', 'F', ',', ' ',
      '-', '5', '/', '2', '5', '6'] = some [0x20, 0, 0, 0, 0, 0xFF, 0x80, 0x40, 0xFF, 0xFF, 0xFB] := by decide

/-- R64, R65: strings, lists, tuples, numbers out of range. -/
theorem test_assemble_literals :
    assemble ['c', 'f', 'g', '.', 'o', 'r', 'd', 'e', 'r', ' ', '"', 'r', 'g', 'b', ' ', '"'] = some [1, 0x72, 0x67, 0x62, 0x20] ∧
    assemble ['s', 'e', 't', 'c', 's'] = some [0x11] ∧
    assemble ['s', 'e', 't', 'c', 's', ' ', '(', '1', ',', ' ', '2', ',', '3', ',', '4', ')', ',', 'R', 'e', 'd']
      = some [0x11, 1, 2, 3, 4, 255, 0, 0, 255] ∧
    assemble ['g', 'e', 't', 'c', ' ', '-', '1'] = some [0x12, 255, 255, 255, 255] ∧
    assemble ['s', 'e', 't', 'g', 'b', ' ', '2', '5', '6'] = none := by decide

/-! ## Witnesses: states and operands that meet the hypotheses of the statements, clause by clause at a boundary -/

theorem witness_DecodeEncodeRoundTrip : WellFormed (.cfgGamma 2) ∧ decode (encode (.cfgGamma 2)) = .ok (.cfgGamma 2) := by
  decide

theorem witness_StepRunsDecodedCommand :
    ({ configured 1 with host := [.packet [0x03]] } : State).host = .packet [0x03] :: [] ∧
      decode [0x03] = .ok .init := by decide

/-- One packet for each of the four forms of R57. -/
theorem witness_StepAnswersIllegal :
    IllegalPacket [] ∧ IllegalPacket [0x21] ∧ IllegalPacket [0x17, 0x00] ∧ IllegalPacket [0x02, 0x03] :=
  ⟨.inl rfl, .inr (.inl ⟨0x21, [], rfl, by intro c; cases c <;> decide⟩),
    .inr (.inr (.inl ⟨.update, [0x00], rfl, by decide⟩)), .inr (.inr (.inr ⟨3, rfl, by decide⟩))⟩

theorem witness_StepIdleHolds : (configured 1).host = [] := rfl

theorem witness_StepResets : ({ running 1 with host := [.reset] } : State).host = .reset :: [] := rfl

/-- A state of the built block in RUN that meets the invariant, and its step. -/
theorem witness_StepKeepsInvariant :
    State.Inv { State.reset with phase := .run } ∧
      step { State.reset with phase := .run } = .next { State.reset with phase := .run } := by
  refine ⟨⟨resetBuf_wf _, List.length_replicate, ⟨nofun, nofun, nofun⟩, ?_, ?_, ?_, fun _ => rfl, nofun⟩, rfl⟩
  · intro i hi
    have hi' : i < Config.nLeds := by simpa [State.nLeds, State.reset, State.resetFor] using hi
    have hb : ∀ k, 0 < k → k < 4 → (resetBuf Config.nLeds).read (base i + k) = 0 := fun k h0 h4 =>
      read_resetBuf_other _ _ (fun j _ => by simp only [base]; omega)
    have hc : (List.replicate Config.nLeds Colour.off).getD i Colour.off = Colour.off := by
      simp [List.getD_eq_getElem?_getD, hi']
    show (resetBuf Config.nLeds).readBytes (base i) 4 = _
    rw [readBytes_four, read_resetBuf_base _ _ hi', hb 1 (by omega) (by omega), hb 2 (by omega) (by omega),
      hb 3 (by omega) (by omega)]
    simp only [State.encoded, State.colour, State.reset, State.resetFor, hc]
    rfl
  · intro a ha
    refine read_resetBuf_other _ _ (fun j hj => ?_)
    have hn : State.nLeds { State.reset with phase := .run } = Config.nLeds := List.length_replicate
    rw [hn] at ha
    simp only [base] at *
    omega
  · intro i hi
    have hi' : i < Config.nLeds := by simpa [State.nLeds, State.reset, State.resetFor] using hi
    show BitVec.extractLsb' 5 3 ((resetBuf Config.nLeds).read (base i)) = _
    rw [read_resetBuf_base _ _ hi']
    rfl

/-- A reachable state that is not the reset state: INIT has been carried out. -/
theorem witness_ReachableIsConsistent :
    ∃ s, Reachable s ∧ s.phase = .run ∧ s.rsp = [⟨.ok, []⟩] :=
  ⟨_, .step (.start [.packet [0x03]] []) rfl, rfl, rfl⟩

theorem witness_OfferedFrameLayout :
    (answering 1 10 false).consistent ∧ (answering 1 10 false).framed ∧ (answering 1 10 false).phase = .run ∧
      ∃ t, exec .update (answering 1 10 false) = .next t := by
  refine ⟨?_, ?_, rfl, _, rfl⟩
  · intro i hi
    have : i = 0 := by simp [State.nLeds, answering, running, State.resetFor] at hi; omega
    subst this
    decide
  · intro a ha
    refine read_resetBuf_other 1 a (fun j hj => ?_)
    have : State.nLeds (answering 1 10 false) = 1 := rfl
    simp only [base, this] at *
    omega

/-- One string for each clause, at the edges: two letters, four characters, three. -/
theorem witness_CfgOrderResult :
    (configured 1).phase = .config ∧ (running 1).phase ≠ .config ∧ ¬ hasAllLetters [0x72, 0x67] ∧
    (hasAllLetters [0x72, 0x67, 0x62, 0x72] ∧ ([0x72, 0x67, 0x62, 0x72] : List Byte).length ≠ 3) ∧
    (hasAllLetters [0x67, 0x52, 0x62] ∧ ([0x67, 0x52, 0x62] : List Byte).length = 3) ∧
    (configured 1).offsetsOk := by decide

theorem witness_CfgGamma :
    (configured 1).phase = .config ∧ (configured 1).offsetsOk ∧ (running 1).phase ≠ .config ∧
      2 < (3 : Byte).toNat ∧ ([0, 0] : List Byte).length ≠ 1 := by decide

theorem witness_InitResult :
    (nextOf (execAll [.cfgGamma 0] { configured 1 with cfgerr := true })).isSome = true ∧
    ((configured 1).phase = .config ∧ (configured 1).cfgerr = false) ∧
    (({ configured 1 with cfgerr := true } : State).phase = .config ∧
      ({ configured 1 with cfgerr := true } : State).cfgerr = true) ∧ (running 1).phase ≠ .config := by decide

theorem witness_ConfigErrorKeepsConfig :
    ({ configured 1 with cfgerr := true } : State).phase = .config ∧
      ({ configured 1 with cfgerr := true } : State).cfgerr = true ∧
      (nextOf (execAll [.init, .update] { configured 1 with cfgerr := true })).isSome = true := by decide

/-- The last LED, the position after it, and position -1. -/
theorem witness_SetColourResult :
    (running 3).phase = .run ∧ (running 3).offsetsOk ∧ (configured 3).phase ≠ .run ∧
    ((2 : BitVec 32).toInt = ((2 : Nat) : Int) ∧ 2 < (running 3).nLeds) ∧
    ((running 3).nLeds : Int) ≤ (3 : BitVec 32).toInt ∧ (BitVec.ofInt 32 (-1)).toInt < 0 := by decide

/-- A list of two entries for three LEDs: an entry used, and an LED without one; and one entry too many for one LED. -/
theorem witness_SetColoursResult :
    (running 3).phase = .run ∧ (running 3).offsetsOk ∧
    (1 < (running 3).nLeds ∧ [Colour.off, ⟨1, 2, 3, 4⟩][1]? = some (⟨1, 2, 3, 4⟩ : Colour)) ∧
    [Colour.off, ⟨1, 2, 3, 4⟩].length ≤ 2 ∧ ([1, 2, 3] : List Byte).length % 4 ≠ 0 := by decide

theorem witness_SetColoursIsSetColourByOne :
    (running 2).phase = .run ∧ (running 2).nLeds ≤ 2147483647 ∧
      (nextOf (exec (.setColours [⟨1, 2, 3, 4⟩]) (running 2))).isSome = true := by decide

theorem witness_GetColourResult :
    (running 3).phase = .run ∧ (configured 3).phase ≠ .run ∧
    ((2 : BitVec 32).toInt = ((2 : Nat) : Int) ∧ (running 3).col[2]? = some ⟨0, 0, 0, 0⟩) ∧
    ((running 3).nLeds : Int) ≤ (3 : BitVec 32).toInt ∧ (BitVec.ofInt 32 (-1)).toInt < 0 := by decide

theorem witness_GetColourReturnsColourSet :
    (running 1).phase = .run ∧ 0 ≤ (0 : BitVec 32).toInt ∧ (0 : BitVec 32).toInt < (running 1).nLeds ∧
      ∃ t u, execAll [.setColour 0 ⟨1, 2, 3, 4⟩, .setBrightness 7] (running 1) = .next t ∧
        exec (.getColour 0) t = .next u := by
  exact ⟨rfl, by decide, by decide, _, _, rfl, rfl⟩

/-- The two phases, for the commands that are answered in RUN only (SNAPSHOT, GET_BRIGHTNESS, CLEAR, SET_BRIGHTNESS). -/
theorem witness_RunCommands :
    (running 2).phase = .run ∧ (running 2).offsetsOk ∧ (configured 2).phase ≠ .run ∧
      (running 2).gmode ≠ .customCorrection ∧ 1 < (running 2).nLeds := by decide

theorem witness_BrightnessRestores :
    (running 1).phase = .run ∧ (running 1).offsetsOk ∧ (running 1).consistent ∧
      ∃ t, execAll [.setBrightness 9, .setBrightness (running 1).gbright] (running 1) = .next t := by
  refine ⟨rfl, by decide, ?_, _, rfl⟩
  intro i hi
  have : i = 0 := by simp [State.nLeds, running, State.resetFor] at hi; omega
  subst this
  decide

theorem witness_ChannelBytesIgnoreBrightness : GMode.tableCorrection ≠ .customCorrection := by decide

/-- An answer for each clause of UPDATE, counts at LEN and one beside it. -/
theorem witness_UpdateResult :
    frameLen (running 3).nLeds = 19 ∧ (answering 3 19 true).sink = ⟨19, true⟩ :: [] ∧
    (answering 3 18 false).sink = ⟨18, false⟩ :: [] ∧ (answering 3 19 false).sink = ⟨19, false⟩ :: [] ∧
    (answering 3 19 false).phase = .run ∧ (configured 3).phase ≠ .run := by decide

theorem witness_UpdateWaitsForSink : (running 1).phase = .run ∧ (running 1).sink = [] := by decide

theorem witness_OnlyUpdateOffers :
    (Instr.clear ≠ .update) ∧ (nextOf (exec .clear (running 1))).isSome = true := by decide

/-- Ratios at the edges of the three cases: 0, 1, 255 and 256. -/
theorem witness_Blend :
    (0 : BitVec 16).toInt ≤ 0 ∧ (0 < (1 : BitVec 16).toInt ∧ (1 : BitVec 16).toInt < 256) ∧
    (0 < (255 : BitVec 16).toInt ∧ (255 : BitVec 16).toInt < 256) ∧ 256 ≤ (256 : BitVec 16).toInt ∧
    (0 : Byte).toNat < (255 : Byte).toNat ∧ (1 : BitVec 16).toInt ≤ (255 : BitVec 16).toInt ∧
    ([0] : List Byte).length ≠ 10 := by decide

/-- The same edges as rationals: 0, 1/256, 255/256 and 1. -/
theorem witness_BlendIsTruncatedInterpolation :
    (((0 : BitVec 16).toInt : ℚ) / 256 ≤ 0) ∧ (1 ≤ ((256 : BitVec 16).toInt : ℚ) / 256) ∧
    (0 < ((1 : BitVec 16).toInt : ℚ) / 256 ∧ ((255 : BitVec 16).toInt : ℚ) / 256 < 1) := by
  have h0 : (0 : BitVec 16).toInt = 0 := by decide
  have h1 : (1 : BitVec 16).toInt = 1 := by decide
  have h255 : (255 : BitVec 16).toInt = 255 := by decide
  have h256 : (256 : BitVec 16).toInt = 256 := by decide
  rw [h0, h1, h255, h256]
  norm_num

theorem witness_FrameSizes : 1 ≤ 1 := by decide

theorem witness_GammaTableProperties : (254 : Byte).toNat < 255 := by decide

/-- The default instance is a table with the three properties. -/
theorem witness_EveryGammaTableAllowed :
    defaultTable 0 = 0 ∧ defaultTable 255 = 255 ∧
      ∀ i : Byte, i.toNat < 255 → (defaultTable i).toNat ≤ (defaultTable (i + 1)).toNat := by decide +kernel

theorem witness_WrongPhaseAnswered :
    (WellFormed .clear ∧ phaseAccepts Instr.clear.command (configured 1).phase = false) ∧
      (nextOf (exec (.blend Colour.off Colour.off 0) (configured 1))).isSome = true := by decide

/-- An error, an OK and a command that ends, for the statements about responses. -/
theorem witness_Responses :
    WellFormed .getBrightness ∧
    (nextOf (exec .getBrightness (running 1))).map State.rsp = some [⟨.ok, [255]⟩] ∧
    (nextOf (exec (.cfgOrder []) (configured 1))).map State.rsp = some [⟨.errOrderMissing, []⟩] ∧
    (nextOf (exec .init (running 1))).map State.rsp = some [⟨.errPhase, []⟩] := by decide

theorem witness_FirstFailingTestDecides :
    ({ configured 1 with host := [.packet [0x16]] } : State).host = .packet [0x16] :: [] ∧
      (nextOf (step { configured 1 with host := [.packet [0x16]] })).isSome = true := by decide

theorem witness_NothingElseStops : Instr.update = .update → (answering 1 10 false).phase = .run →
    (answering 1 10 false).sink ≠ [] := by decide

/-- A step of each kind that changes PHASE. -/
theorem witness_PhaseTransitions :
    (nextOf (step { configured 1 with host := [.packet [0x03]] })).map State.phase = some .run ∧
    (nextOf (step { running 1 with host := [.reset] })).map State.phase = some .config := by decide

theorem witness_ConfigurationFrozenInRun :
    (running 1).phase = .run ∧ (nextOf (exec (.cfgGamma 0) (running 1))).isSome = true := by decide

theorem witness_CfgErrIsSticky :
    (nextOf (exec (.cfgOrder [0x72]) (configured 1))).map State.cfgerr = some true ∧ (configured 1).cfgerr = false ∧
    (nextOf (exec .init { configured 1 with cfgerr := true })).map State.cfgerr = some true := by decide

/-- Each command of the frames completes: the readers, UPDATE, the stores, the control commands. -/
theorem witness_Frames :
    ([.getColour 0, .snapshot, .getBrightness, .blend Colour.off Colour.off 0, .update, .setColour 0 ⟨1, 2, 3, 4⟩,
      .setColours [⟨1, 2, 3, 4⟩], .clear, .setBrightness 3] : List Instr).all
        (fun i => (nextOf (exec i (answering 1 10 false))).isSome) = true ∧
    ([.cfgOrder [0x72, 0x67, 0x62], .cfgGamma 0, .init] : List Instr).all
        (fun i => (nextOf (exec i (configured 1))).isSome) = true ∧
    posIndex (answering 1 10 false).nLeds 0 = some 0 ∧ posIndex (answering 1 10 false).nLeds 1 = none := by decide

/-- Each of the five commands, twice in a row. -/
theorem witness_WritersAreIdempotent :
    (running 1).offsetsOk ∧ (configured 1).offsetsOk ∧
    ([.setColour 0 ⟨1, 2, 3, 4⟩, .setBrightness 3, .clear] : List Instr).all
      (fun i => (nextOf (execAll [i, i] (running 1))).isSome) = true ∧
    ([.cfgGamma 0, .cfgOrder [0x72, 0x67, 0x62]] : List Instr).all
      (fun i => (nextOf (execAll [i, i] (configured 1))).isSome) = true ∧
    (hasAllLetters [0x72, 0x67, 0x62] ∧ ([0x72, 0x67, 0x62] : List Byte).length = 3) := by decide

/-- The same block with two different answers of the sink. -/
theorem witness_BlockIgnoresSinkAnswers :
    sameBlock (answering 1 10 false) (answering 1 3 true) ∧
      (nextOf (execAll [.update, .clear] (answering 1 10 false))).isSome = true ∧
      (nextOf (execAll [.update, .clear] (answering 1 3 true))).isSome = true := by
  exact ⟨⟨rfl, rfl, rfl, rfl, rfl, rfl, rfl, rfl, rfl⟩, by decide, by decide⟩

theorem witness_HexParseForms : (['#'] : List Char).length ≠ 7 ∧ (['#'] : List Char).length ≠ 9 := by decide

theorem witness_AssembledLinesAreLegal : assemble ['i', 'n', 'i', 't'] = some [0x03] := by decide

end Sys2Proof.Tests
end

section
/-! The step on a legal packet (spec/00_scope.md R12, R43) and the sizes of footer and frame (R8). -/

namespace Sys2Proof.Machine

/-- A step on a packet the decoder accepts (R12). -/
theorem step_of_decode_ok {s : State} {p : Packet} {rest : List HostEvent} {i : Instr}
    (hs : s.host = .packet p :: rest) (hp : decode p = .ok i) : step s = exec i (takeOffer rest s) := by
  simp only [step, hs, hp]

/-- Settles O5, by the step's equation for a packet the decoder accepts. -/
theorem stepRunsDecodedCommand : Obligations.StepRunsDecodedCommand :=
  fun _ _ _ _ hs hp => step_of_decode_ok hs hp

/-- DS's ceiling in the integer form of R8; at `n = 0` both sides are 0. -/
theorem ceil_pred_div_sixteen (n : Nat) : ⌈((n : ℚ) - 1) / 16⌉ = (n + 14 : Int) / 16 := by
  have hceil : ⌈((n : ℚ) - 1) / 16⌉ = -(-((n : Int) - 1) / 16) := by
    exact_mod_cast Rat.ceil_intCast_div_natCast ((n : Int) - 1) 16
  omega

/-- The footer's length by DS's ceiling (R8). -/
theorem footerLen_eq_ceil (n : Nat) : (footerLen n : Int) = ⌈((n : ℚ) - 1) / 16⌉ + 2 := by
  rw [ceil_pred_div_sixteen, footerLen]
  push_cast
  rfl

/-- Settles O35: the ceiling form is `footerLen_eq_ceil`; the model defines the other two as R8 prints them. -/
theorem frameSizes : Obligations.FrameSizes :=
  fun n _ => ⟨footerLen_eq_ceil n, rfl, rfl⟩

end Sys2Proof.Machine
end

section
/-! What holds straight after reset (spec/10_state.md R30) and what carries the invariant (R27-R29) from state to state:
agreement of the block's own fields, the re-encode of every record, and the store loop. -/

namespace Sys2Proof.Machine

/-! ## Agreement of the block's own fields -/

theorem sameBlock_refl (s : State) : sameBlock s s := ⟨rfl, rfl, rfl, rfl, rfl, rfl, rfl, rfl, rfl⟩

theorem sameBlock_respond (s : State) (st : Status) (p : List Byte) : sameBlock s (s.respond st p) := sameBlock_refl s

theorem sameBlock_takeOffer (rest : List HostEvent) (s : State) : sameBlock s (takeOffer rest s) := sameBlock_refl s

/-- The sink's answer and the record of the offer are no part of the block (R62). -/
theorem sameBlock_sinkOffer {s u : State} {a : SinkAnswer} (h : sinkOffer s = some (a, u)) : sameBlock s u := by
  cases hs : s.sink with
  | nil => simp [sinkOffer_nil hs] at h
  | cons b later =>
    rw [sinkOffer_cons hs] at h
    cases h
    exact sameBlock_refl s

/-- The invariant speaks of the block alone, not of its ports. -/
theorem inv_of_sameBlock {s t : State} (h : sameBlock s t) (hs : s.Inv) : t.Inv := by
  obtain ⟨hcol, hbuf, hgb, hgm, hR, hG, hB, hph, hce⟩ := h
  cases s
  cases t
  dsimp only at hcol hbuf hgb hgm hR hG hB hph hce
  subst hcol hbuf hgb hgm hR hG hB hph hce
  exact ⟨hs.wf, hs.sized, hs.offsets, hs.consistent, hs.framed, hs.marked, hs.clean, hs.fresh⟩

/-! ## The brightness byte -/

/-- The top three bits of a brightness byte are ones (R101 step 4). -/
theorem brightnessByte_marked (e : Byte) : (brightnessByte e).extractLsb' 5 3 = 0b111 := by
  revert e
  decide

/-- A record's first byte, where the record is `encode` of its stored colour. -/
theorem read_base_of_record {s : State} {i : Nat} (h : s.record i = s.encoded i) :
    s.buf.read (base i) = brightnessByte (effL s.gbright (s.colour i).l) := by
  have hhead := encodeRecord_head corrector (s.colour i) s.gbright s.gmode s.offR s.offG s.offB
  rw [← State.encoded, ← h, State.record, readBytes_four] at hhead
  exact Option.some.inj hhead

/-- Consistent records have marked brightness bytes: the third part of R28 follows from R27. -/
theorem marked_of_consistent {s : State} (h : s.consistent) : s.marked := fun i hi => by
  rw [read_base_of_record (h i hi), brightnessByte_marked]

/-! ## Reset -/

@[simp] theorem resetFor_nLeds (n : Nat) : (State.resetFor n).nLeds = n := List.length_replicate

@[simp] theorem resetFor_colour (n i : Nat) : (State.resetFor n).colour i = Colour.off := by
  rw [State.colour, State.resetFor, List.getD_eq_getElem?_getD, List.getElem?_replicate]
  split <;> rfl

theorem resetFor_record {n i : Nat} (hi : i < n) : (State.resetFor n).record i = [0xE0, 0, 0, 0] := by
  have hzero : ∀ k, 0 < k → k < 4 → (resetBuf n).read (base i + k) = 0 := fun k h0 h4 =>
    read_resetBuf_other _ _ (fun j _ => by simp only [base]; omega)
  rw [State.record, State.resetFor, readBytes_four, read_resetBuf_base n i hi, hzero 1 (by omega) (by omega),
    hzero 2 (by omega) (by omega), hzero 3 (by omega) (by omega)]

/-- The encoding of Off at the reset values of the control fields: entry 0 of the gamma table is 0 (R83 G1). -/
theorem encodeRecord_off :
    encodeRecord corrector Colour.off 255 .tableCorrection .three .two .one = [0xE0, 0, 0, 0] := rfl

theorem resetFor_framed (n : Nat) : (State.resetFor n).framed := fun a ha => by
  rw [resetFor_nLeds] at ha
  refine read_resetBuf_other n a (fun i hi => ?_)
  simp only [base] at *
  omega

theorem resetFor_consistent (n : Nat) : (State.resetFor n).consistent := fun i hi => by
  rw [resetFor_record (by simpa using hi), State.encoded, resetFor_colour]
  exact encodeRecord_off.symm

theorem reset_inv : State.reset.Inv where
  wf := resetBuf_wf _
  sized := resetFor_nLeds _
  offsets := ⟨nofun, nofun, nofun⟩
  consistent := resetFor_consistent _
  framed := resetFor_framed _
  marked := marked_of_consistent (resetFor_consistent _)
  clean := nofun
  fresh := fun _ => ⟨rfl, fun _ hc => List.eq_of_mem_replicate hc⟩

/-- A reset brings the block to the invariant from any contents of its colour array's length (R151). -/
theorem hostReset_inv {s : State} (h : s.sized) : (hostReset s).Inv := by
  refine inv_of_sameBlock (s := State.reset) ?_ reset_inv
  unfold hostReset
  rw [show s.nLeds = Config.nLeds from h]
  exact sameBlock_refl State.reset

/-- Settles O9, by the record and the encoding of Off at reset. -/
theorem resetValues : Obligations.ResetValues :=
  ⟨resetFor_nLeds _, rfl, rfl, rfl, rfl, rfl, rfl, rfl, fun i _ => resetFor_colour _ i,
    fun _ hi => ⟨(resetFor_record hi).trans encodeRecord_off.symm, resetFor_record hi⟩,
    fun a ha => resetFor_framed Config.nLeds a (by simpa [base] using ha)⟩

/-- Settles O10, by the record, the encoding and the frame at reset. -/
theorem resetMeetsInvariant : Obligations.ResetMeetsInvariant := reset_inv

/-! ## Re-encoding every record -/

/-- Writing every record again gives the invariant, whatever the records held before: of what it says of BUF only the
canonical form and the zero header and footer have to hold already. -/
theorem renderAll_inv {s : State} (hwf : s.buf.wf) (hsized : s.sized) (hoff : s.offsetsOk) (hframed : s.framed)
    (hclean : s.clean) (hfresh : s.fresh) : (renderAll s).Inv := by
  have hwf' : (renderAll s).buf.wf := renderAll_wf s hwf
  have hrec : ∀ i, i < s.nLeds → (renderAll s).record i = s.encoded i := record_renderAll s hoff
  have hframed' : ∀ a, (a < base 0 ∨ base s.nLeds ≤ a) → (renderAll s).buf.read a = 0 := fun a ha => by
    rw [read_renderAll_other s a ha, hframed a ha]
  rw [renderAll_eq s] at hrec ⊢
  have hcons : State.consistent { s with buf := (renderAll s).buf } := hrec
  exact ⟨hwf', hsized, hoff, hcons, hframed', marked_of_consistent hcons, hclean, hfresh⟩

/-! ## The store loop -/

/-- Storing a list of colours in RUN keeps the invariant: the listed records are written again, the others keep both
their bytes and their colours. -/
theorem storeFrom_inv {s : State} (h : s.Inv) (hrun : s.phase = .run) (j : Nat) (cs : List Colour)
    (hlen : j + cs.length ≤ s.nLeds) : (storeFrom s j cs).Inv := by
  obtain ⟨heq, hn, hwf, hcol, -, hrec, -, hout⟩ := storeFrom_spec cs s j hlen
  have hcons : (storeFrom s j cs).consistent := fun i hi => by
    rw [hn] at hi
    by_cases hin : j ≤ i ∧ i < j + cs.length
    · exact hrec h.offsets i hin.1 hin.2
    · have hbytes : (storeFrom s j cs).record i = s.record i := by
        simp only [State.record, readBytes_four]
        rw [hout, hout, hout, hout] <;> simp only [base] <;> omega
      have henc : (storeFrom s j cs).encoded i = s.encoded i := by
        rw [State.encoded, hcol i (by omega), heq, State.encoded]
      rw [hbytes, henc, h.consistent i hi]
  have hframed : (storeFrom s j cs).framed := fun a ha => by
    rw [hn] at ha
    rw [hout a (by simp only [base] at *; omega), h.framed a ha]
  have hphase : (storeFrom s j cs).phase = .run := by rw [heq, ← hrun]
  exact {
    wf := hwf h.wf
    sized := hn.trans h.sized
    offsets := by rw [heq]; exact h.offsets
    consistent := hcons
    framed := hframed
    marked := marked_of_consistent hcons
    clean := fun _ => by rw [heq]; exact h.clean hrun
    fresh := fun hconfig => by rw [hphase] at hconfig; cases hconfig }

end Sys2Proof.Machine
end

section
/-! What a command that completes does to the block, said once (spec/30_encoding.md R54), and what follows for PHASE
(spec/10_state.md R19), for CFGERR (R20) and for the invariant (R27-R29). -/

namespace Sys2Proof.Machine

/-! ## The effect of a command -/

/-- The state a command leads to, before its response is put on RSP. `unchanged` covers the reading commands, the
commands in the wrong phase, and those whose operand or CFGERR lets them do nothing. -/
inductive Effect (s : State) : Instr → State → Prop
  | unchanged (i : Instr) : Effect s i s
  | orderFailed {str : List Byte} (hphase : s.phase = .config)
    (hv : validate str = .missing ∨ validate str = .malformed) : Effect s (.cfgOrder str) (setCfgErr s)
  | orderSet {str : List Byte} {r g b : Slot} (hphase : s.phase = .config) (hv : validate str = .valid r g b) :
    Effect s (.cfgOrder str) (renderAll { s with offR := r, offG := g, offB := b })
  | gammaSet {mode : Byte} {g : GMode} (hphase : s.phase = .config) (hg : gmodeOf mode = some g) :
    Effect s (.cfgGamma mode) (renderAll { s with gmode := g })
  | started (hphase : s.phase = .config) (herr : s.cfgerr = false) : Effect s .init { s with phase := .run }
  | colourSet {pos : BitVec 32} {k : Nat} (c : Colour) (hphase : s.phase = .run)
    (hk : posIndex s.nLeds pos = some k) : Effect s (.setColour pos c) (store s k c)
  | coloursSet (e : List Colour) (hphase : s.phase = .run) :
    Effect s (.setColours e) (storeFrom s 0 (e.take s.nLeds))
  | brightnessSet (v : Byte) (hphase : s.phase = .run) :
    Effect s (.setBrightness v) (renderAll { s with gbright := v })
  | cleared (hphase : s.phase = .run) : Effect s .clear (storeFrom s 0 (List.replicate s.nLeds Colour.off))
  | offered {answer : SinkAnswer} {u : State} (hphase : s.phase = .run) (ho : sinkOffer s = some (answer, u)) :
    Effect s .update u

/-- The command's effect, and one response (R59). -/
def Completes (s : State) (i : Instr) (t : State) : Prop :=
  ∃ u status payload, Effect s i u ∧ t = u.respond status payload

theorem completes_of_reply {s u t : State} {i : Instr} {p : List Byte} (he : Effect s i u)
    (h : reply p u = .next t) : Completes s i t := ⟨u, .ok, p, he, ((reply_eq_next p u t).1 h).symm⟩

theorem completes_of_raise {s u t : State} {i : Instr} {st : Status} (he : Effect s i u)
    (h : raise st u = .next t) : Completes s i t := ⟨u, st, [], he, ((raise_eq_next st u t).1 h).symm⟩

/-- The phase check by itself changes nothing but the response (R141). -/
theorem completes_of_inPhase {s t : State} {i : Instr} {p : Phase} {go : Result} (h : inPhase p s go = .next t)
    (hgo : s.phase = p → go = .next t → Completes s i t) : Completes s i t := by
  obtain ⟨hp, hnext⟩ | ⟨-, hraise⟩ := inPhase_cases h
  · exact hgo hp hnext
  · exact completes_of_raise (.unchanged i) hraise.symm

/-- Everything a command that completes can do. -/
theorem exec_completes {i : Instr} {s t : State} (h : exec i s = .next t) : Completes s i t := by
  cases i with
  | cfgOrder str =>
    refine completes_of_inPhase h fun hp hgo => ?_
    split at hgo
    · exact completes_of_raise (.orderFailed hp (.inl ‹_›)) hgo
    · exact completes_of_raise (.orderFailed hp (.inr ‹_›)) hgo
    · exact completes_of_reply (.orderSet hp ‹_›) hgo
  | cfgGamma mode =>
    simp only [exec, execCfgGamma] at h
    split at h
    · exact completes_of_raise (.unchanged _) h
    · exact completes_of_inPhase h fun hp hgo => completes_of_reply (.gammaSet hp ‹_›) hgo
  | init =>
    refine completes_of_inPhase h fun hp hgo => ?_
    split at hgo
    · exact completes_of_raise (.unchanged _) hgo
    · exact completes_of_reply (.started hp (Bool.eq_false_iff.2 ‹_›)) hgo
  | setColour pos c =>
    refine completes_of_inPhase h fun hp hgo => ?_
    split at hgo
    · exact completes_of_reply (.colourSet c hp ‹_›) hgo
    · exact completes_of_reply (.unchanged _) hgo
  | setColours e => exact completes_of_inPhase h fun hp hgo => completes_of_reply (.coloursSet e hp) hgo
  | getColour pos =>
    refine completes_of_inPhase h fun _ hgo => ?_
    split at hgo <;> exact completes_of_reply (.unchanged _) hgo
  | snapshot => exact completes_of_inPhase h fun _ hgo => completes_of_reply (.unchanged _) hgo
  | setBrightness v => exact completes_of_inPhase h fun hp hgo => completes_of_reply (.brightnessSet v hp) hgo
  | getBrightness => exact completes_of_inPhase h fun _ hgo => completes_of_reply (.unchanged _) hgo
  | clear => exact completes_of_inPhase h fun hp hgo => completes_of_reply (.cleared hp) hgo
  | update =>
    refine completes_of_inPhase h fun hp hgo => ?_
    split at hgo
    · cases hgo
    · split at hgo
      · exact completes_of_raise (.offered hp ‹_›) hgo
      · split at hgo
        · exact completes_of_raise (.offered hp ‹_›) hgo
        · exact completes_of_reply (.offered hp ‹_›) hgo
  | blend o g q => exact completes_of_reply (.unchanged _) h

/-! ## PHASE and CFGERR -/

/-! The loops over the records leave both alone. -/

@[simp] theorem renderAll_phase (s : State) : (renderAll s).phase = s.phase := by rw [renderAll_eq]
@[simp] theorem renderAll_cfgerr (s : State) : (renderAll s).cfgerr = s.cfgerr := by rw [renderAll_eq]

@[simp] theorem storeFrom_phase : ∀ (cs : List Colour) (s : State) (j : Nat), (storeFrom s j cs).phase = s.phase
  | [], _, _ => rfl
  | c :: cs, s, j => storeFrom_phase cs (store s j c) (j + 1)

@[simp] theorem storeFrom_cfgerr : ∀ (cs : List Colour) (s : State) (j : Nat), (storeFrom s j cs).cfgerr = s.cfgerr
  | [], _, _ => rfl
  | c :: cs, s, j => storeFrom_cfgerr cs (store s j c) (j + 1)

/-- Only INIT changes PHASE, from CONFIG to RUN and only without a configuration error (R104). -/
theorem Effect.phase {s u : State} {i : Instr} (h : Effect s i u) :
    u.phase = s.phase ∨ (i = .init ∧ s.phase = .config ∧ s.cfgerr = false ∧ u.phase = .run) := by
  cases h with
  | unchanged => exact .inl rfl
  | orderFailed => exact .inl rfl
  | orderSet => exact .inl (renderAll_phase _)
  | gammaSet => exact .inl (renderAll_phase _)
  | started hphase herr => exact .inr ⟨rfl, hphase, herr, rfl⟩
  | colourSet => exact .inl rfl
  | coloursSet => exact .inl (storeFrom_phase _ _ _)
  | brightnessSet => exact .inl (renderAll_phase _)
  | cleared => exact .inl (storeFrom_phase _ _ _)
  | offered _ ho =>
    obtain ⟨-, -, -, -, -, -, -, hphase, -⟩ := sameBlock_sinkOffer ho
    exact .inl hphase

/-- Only a CFG_ORDER in CONFIG that fails validation changes CFGERR, and it sets it (R20). -/
theorem Effect.cfgerr {s u : State} {i : Instr} (h : Effect s i u) :
    u.cfgerr = s.cfgerr ∨ (u.cfgerr = true ∧ s.phase = .config ∧
      ∃ str, i = .cfgOrder str ∧ (validate str = .missing ∨ validate str = .malformed)) := by
  cases h with
  | unchanged => exact .inl rfl
  | orderFailed hphase hv => exact .inr ⟨rfl, hphase, _, rfl, hv⟩
  | orderSet => exact .inl (renderAll_cfgerr _)
  | gammaSet => exact .inl (renderAll_cfgerr _)
  | started => exact .inl rfl
  | colourSet => exact .inl rfl
  | coloursSet => exact .inl (storeFrom_cfgerr _ _ _)
  | brightnessSet => exact .inl (renderAll_cfgerr _)
  | cleared => exact .inl (storeFrom_cfgerr _ _ _)
  | offered _ ho =>
    obtain ⟨-, -, -, -, -, -, -, -, herr⟩ := sameBlock_sinkOffer ho
    exact .inl herr

theorem exec_phase {i : Instr} {s t : State} (h : exec i s = .next t) :
    t.phase = s.phase ∨ (i = .init ∧ s.phase = .config ∧ s.cfgerr = false ∧ t.phase = .run) := by
  obtain ⟨u, st, p, he, rfl⟩ := exec_completes h
  exact he.phase

theorem exec_cfgerr {i : Instr} {s t : State} (h : exec i s = .next t) :
    t.cfgerr = s.cfgerr ∨ (t.cfgerr = true ∧ s.phase = .config ∧
      ∃ str, i = .cfgOrder str ∧ (validate str = .missing ∨ validate str = .malformed)) := by
  obtain ⟨u, st, p, he, rfl⟩ := exec_completes h
  exact he.cfgerr

theorem any_eq_or_eq_iff (a b : Byte) (str : List Byte) :
    str.any (fun ch => ch == a || ch == b) = true ↔ hasLetter a b str := by
  simp [hasLetter, and_or_left, exists_or]

/-- Check (a) of R94. -/
theorem any_letters_iff (str : List Byte) :
    (str.any isR && str.any isG && str.any isB) = true ↔ hasAllLetters str := by
  have hR : str.any isR = true ↔ hasLetter 0x72 0x52 str := any_eq_or_eq_iff _ _ str
  have hG : str.any isG = true ↔ hasLetter 0x67 0x47 str := any_eq_or_eq_iff _ _ str
  have hB : str.any isB = true ↔ hasLetter 0x62 0x42 str := any_eq_or_eq_iff _ _ str
  rw [Bool.and_eq_true, Bool.and_eq_true, hR, hG, hB, and_assoc]

/-- A string that fails validation lacks a letter or has a length other than 3 (R94). -/
theorem not_letters_or_length_of_validate {str : List Byte}
    (h : validate str = .missing ∨ validate str = .malformed) : ¬ hasAllLetters str ∨ str.length ≠ 3 := by
  by_contra hvalid
  obtain ⟨hletters, hlen⟩ : hasAllLetters str ∧ str.length = 3 := by simpa only [not_or, not_not] using hvalid
  rw [validate_valid ((any_letters_iff str).2 hletters) hlen] at h
  exact h.elim nofun nofun

/-- Settles O51: CFGERR is what it was, or was set by a CFG_ORDER that failed validation. -/
theorem cfgErrIsSticky : Obligations.CfgErrIsSticky := by
  intro i s t h
  obtain hsame | ⟨hset, hphase, str, hi, hv⟩ := exec_cfgerr h
  · rw [hsame]
    exact ⟨id, fun h0 h1 => absurd h1 (by simp [h0])⟩
  · exact ⟨fun _ => hset, fun _ _ => ⟨hphase, str, hi, not_letters_or_length_of_validate hv⟩⟩

/-- Settles O49: of what a step can do, only a reset and INIT change PHASE. -/
theorem phaseTransitions : Obligations.PhaseTransitions := by
  intro s t h hne
  obtain ⟨-, rfl⟩ | ⟨rest, hhost, rfl⟩ | ⟨p, rest, e, -, -, rfl⟩ | ⟨p, rest, i, hhost, hp, hexec⟩ :=
    step_cases h
  · exact absurd rfl hne
  · have hrun : s.phase = .run := by
      cases hph : s.phase with
      | config => exact absurd hph.symm hne
      | run => rfl
    exact .inr ⟨hrun, rfl, rest, hhost⟩
  · exact absurd rfl hne
  · obtain hsame | ⟨rfl, hconfig, -, hrun⟩ := exec_phase hexec
    · exact absurd hsame hne
    · exact .inl ⟨hconfig, hrun, p, rest, hhost, hp⟩

/-! ## Sequences of commands -/

theorem execAll_cons_eq_next {i : Instr} {is : List Instr} {s t : State} :
    execAll (i :: is) s = .next t ↔ ∃ u, exec i s = .next u ∧ execAll is u = .next t := by
  cases h : exec i s <;> simp [execAll, h]

/-- With CFGERR set in CONFIG no command changes either (R20, R137). -/
theorem exec_keeps_config_error {i : Instr} {s t : State} (hphase : s.phase = .config) (herr : s.cfgerr = true)
    (h : exec i s = .next t) : t.phase = .config ∧ t.cfgerr = true := by
  refine ⟨?_, (cfgErrIsSticky i s t h).1 herr⟩
  obtain hsame | ⟨-, -, hclear, -⟩ := exec_phase h
  · rw [hsame, hphase]
  · rw [herr] at hclear
    cases hclear

/-- Settles O19, by induction on the commands. -/
theorem configErrorKeepsConfig : Obligations.ConfigErrorKeepsConfig := by
  intro is
  induction is with
  | nil =>
    intro s t hphase herr h
    cases h
    exact ⟨hphase, herr⟩
  | cons i is ih =>
    intro s t hphase herr h
    obtain ⟨u, hi, his⟩ := execAll_cons_eq_next.1 h
    obtain ⟨hphase', herr'⟩ := exec_keeps_config_error hphase herr hi
    exact ih u t hphase' herr' his

/-! ## The invariant -/

theorem Effect.inv {s u : State} {i : Instr} (h : Effect s i u) (hs : s.Inv) : u.Inv := by
  cases h with
  | unchanged => exact hs
  | orderFailed hphase _ =>
    have hclean : (setCfgErr s).clean := fun hrun => absurd (hphase.symm.trans hrun) nofun
    exact ⟨hs.wf, hs.sized, hs.offsets, hs.consistent, hs.framed, hs.marked, hclean, hs.fresh⟩
  | orderSet _ hv => exact renderAll_inv hs.wf hs.sized (validate_distinct hv) hs.framed hs.clean hs.fresh
  | gammaSet => exact renderAll_inv hs.wf hs.sized hs.offsets hs.framed hs.clean hs.fresh
  | started _ herr => exact ⟨hs.wf, hs.sized, hs.offsets, hs.consistent, hs.framed, hs.marked, fun _ => herr, nofun⟩
  | @colourSet _ k c hphase hk =>
    have hlt : k < s.nLeds := (posIndex_lt hk).1
    exact storeFrom_inv hs hphase k [c] hlt
  | coloursSet e hphase => exact storeFrom_inv hs hphase 0 _ (by simp)
  | brightnessSet v hphase =>
    have hfresh : State.fresh { s with gbright := v } := fun hconfig => absurd (hphase.symm.trans hconfig) nofun
    exact renderAll_inv hs.wf hs.sized hs.offsets hs.framed hs.clean hfresh
  | cleared hphase => exact storeFrom_inv hs hphase 0 _ (by simp)
  | offered _ ho => exact inv_of_sameBlock (sameBlock_sinkOffer ho) hs

theorem exec_inv {i : Instr} {s t : State} (hs : s.Inv) (h : exec i s = .next t) : t.Inv := by
  obtain ⟨u, st, p, he, rfl⟩ := exec_completes h
  exact inv_of_sameBlock (sameBlock_respond u st p) (he.inv hs)

/-- Settles O11, one case for each thing a step can do. -/
theorem stepKeepsInvariant : Obligations.StepKeepsInvariant := by
  intro s t hs h
  have htaken : ∀ rest, (takeOffer rest s).Inv := fun rest => inv_of_sameBlock (sameBlock_takeOffer rest s) hs
  obtain ⟨-, rfl⟩ | ⟨rest, -, rfl⟩ | ⟨p, rest, e, -, -, rfl⟩ | ⟨p, rest, i, -, -, hexec⟩ := step_cases h
  · exact hs
  · exact hostReset_inv (htaken rest).sized
  · exact inv_of_sameBlock (sameBlock_respond _ _ _) (htaken rest)
  · exact exec_inv (htaken rest) hexec

/-- The invariant holds in every reachable state: at reset, whatever waits at the ports, and after every step. -/
theorem Reachable.inv {s : State} (h : Reachable s) : s.Inv := by
  induction h with
  | start host sink => exact inv_of_sameBlock (sameBlock_refl State.reset) reset_inv
  | step _ hstep ih => exact stepKeepsInvariant _ _ ih hstep

/-- Settles O12, by the invariant of the reachable states. -/
theorem reachableIsConsistent : Obligations.ReachableIsConsistent := fun _ h =>
  ⟨fun i hi => h.inv.consistent i (h.inv.sized ▸ hi), h.inv.offsets⟩

end Sys2Proof.Machine
end

section
/-! The block's state after a command depends on the block's state before it, not on the ports (spec/10_state.md R25,
spec/43_frame_encoder.md R46): each shared operation, and so each command, does the same to two states whose blocks
agree. -/

namespace Sys2Proof.Machine

/-! ## One block at two ports -/

/-- The block of `s` at the ports of `p`. -/
def State.withPorts (s p : State) : State := { s with host := p.host, sink := p.sink, rsp := p.rsp, snk := p.snk }

theorem sameBlock_withPorts (s p : State) : sameBlock s (s.withPorts p) := sameBlock_refl s

/-- States whose blocks agree differ in their ports alone. -/
theorem eq_withPorts_of_sameBlock {s s' : State} (h : sameBlock s s') : s' = s.withPorts s' := by
  obtain ⟨hcol, hbuf, hgb, hgm, hR, hG, hB, hph, hce⟩ := h
  simp only [State.withPorts, ← hcol, ← hbuf, ← hgb, ← hgm, ← hR, ← hG, ← hB, ← hph, ← hce]

theorem foldl_render_withPorts (l : List Nat) (p : State) :
    ∀ s : State, l.foldl render (s.withPorts p) = (l.foldl render s).withPorts p := by
  induction l with
  | nil => exact fun _ => rfl
  | cons i rest ih => exact fun s => ih (render s i)

theorem sameBlock_renderAll (s p : State) : sameBlock (renderAll s) (renderAll (s.withPorts p)) := by
  rw [show renderAll (s.withPorts p) = (renderAll s).withPorts p from foldl_render_withPorts _ p s]
  exact sameBlock_withPorts _ p

theorem storeFrom_withPorts (p : State) : ∀ (cs : List Colour) (s : State) (j : Nat),
    storeFrom (s.withPorts p) j cs = (storeFrom s j cs).withPorts p
  | [], _, _ => rfl
  | c :: cs, s, j => storeFrom_withPorts p cs (store s j c) (j + 1)

theorem sameBlock_storeFrom (s p : State) (j : Nat) (cs : List Colour) :
    sameBlock (storeFrom s j cs) (storeFrom (s.withPorts p) j cs) := by
  rw [storeFrom_withPorts]
  exact sameBlock_withPorts _ p

/-! ## Outcomes that agree on the block -/

/-- Where both outcomes are next states, their blocks agree. -/
def Agree (out out' : Result) : Prop := ∀ t t', out = .next t → out' = .next t' → sameBlock t t'

theorem agree_reply {u u' : State} (h : sameBlock u u') (p p' : List Byte) : Agree (reply p u) (reply p' u') := by
  intro t t' ht ht'
  cases ht
  cases ht'
  exact h

theorem agree_raise {u u' : State} (h : sameBlock u u') (st st' : Status) : Agree (raise st u) (raise st' u') := by
  intro t t' ht ht'
  cases ht
  cases ht'
  exact h

theorem agree_inPhase {p : Phase} {s q : State} {go go' : Result} (h : Agree go go') :
    Agree (inPhase p s go) (inPhase p (s.withPorts q) go') := by
  by_cases hp : s.phase = p
  · rwa [inPhase_of_eq hp, inPhase_of_eq (s := s.withPorts q) hp]
  · rw [inPhase, inPhase, if_neg hp, if_neg (show (s.withPorts q).phase ≠ p from hp)]
    exact agree_raise (sameBlock_withPorts s q) _ _

/-- UPDATE changes nothing of the block, whatever the sink answers (R46, R120). -/
theorem sameBlock_of_exec_update {s t : State} (h : exec .update s = .next t) : sameBlock s t := by
  obtain ⟨u, st, p, he, rfl⟩ := exec_completes h
  cases he with
  | unchanged => exact sameBlock_refl s
  | offered _ ho =>
    have hu : sameBlock s u := sameBlock_sinkOffer ho
    exact hu

/-- A command does the same to the block at any two ports. -/
theorem exec_agree (i : Instr) (s q : State) : Agree (exec i s) (exec i (s.withPorts q)) := by
  have hsame : sameBlock s (s.withPorts q) := sameBlock_withPorts s q
  cases i with
  | cfgOrder str =>
    refine agree_inPhase ?_
    cases validate str with
    | missing => exact agree_raise (sameBlock_withPorts (setCfgErr s) q) _ _
    | malformed => exact agree_raise (sameBlock_withPorts (setCfgErr s) q) _ _
    | valid r g b => exact agree_reply (sameBlock_renderAll { s with offR := r, offG := g, offB := b } q) _ _
  | cfgGamma mode =>
    simp only [exec, execCfgGamma]
    cases gmodeOf mode with
    | none => exact agree_raise hsame _ _
    | some g => exact agree_inPhase (agree_reply (sameBlock_renderAll { s with gmode := g } q) _ _)
  | init =>
    refine agree_inPhase ?_
    rw [show (s.withPorts q).cfgerr = s.cfgerr from rfl]
    split
    · exact agree_raise hsame _ _
    · exact agree_reply (sameBlock_withPorts { s with phase := .run } q) _ _
  | setColour pos c =>
    refine agree_inPhase ?_
    rw [show (s.withPorts q).nLeds = s.nLeds from rfl]
    cases posIndex s.nLeds pos with
    | none => exact agree_reply hsame _ _
    | some k => exact agree_reply (sameBlock_storeFrom s q k [c]) _ _
  | setColours e => exact agree_inPhase (agree_reply (sameBlock_storeFrom s q 0 _) _ _)
  | getColour pos =>
    refine agree_inPhase ?_
    rw [show (s.withPorts q).nLeds = s.nLeds from rfl]
    cases posIndex s.nLeds pos <;> exact agree_reply hsame _ _
  | snapshot => exact agree_inPhase (agree_reply hsame _ _)
  | setBrightness v => exact agree_inPhase (agree_reply (sameBlock_renderAll { s with gbright := v } q) _ _)
  | getBrightness => exact agree_inPhase (agree_reply hsame _ _)
  | clear => exact agree_inPhase (agree_reply (sameBlock_storeFrom s q 0 _) _ _)
  | update =>
    intro t t' ht ht'
    rw [eq_withPorts_of_sameBlock (sameBlock_of_exec_update ht),
      eq_withPorts_of_sameBlock (sameBlock_of_exec_update ht')]
    exact sameBlock_refl s
  | blend o g r => exact agree_reply hsame _ _

theorem exec_sameBlock {i : Instr} {s s' t t' : State} (h : sameBlock s s') (ht : exec i s = .next t)
    (ht' : exec i s' = .next t') : sameBlock t t' := by
  rw [eq_withPorts_of_sameBlock h] at ht'
  exact exec_agree i s s' t t' ht ht'

/-- Settles O57, by induction on the commands. -/
theorem blockIgnoresSinkAnswers : Obligations.BlockIgnoresSinkAnswers := by
  intro is
  induction is with
  | nil =>
    intro s s' t t' h ht ht'
    cases ht
    cases ht'
    exact h
  | cons i is ih =>
    intro s s' t t' h ht ht'
    obtain ⟨u, hi, his⟩ := execAll_cons_eq_next.1 ht
    obtain ⟨u', hi', his'⟩ := execAll_cons_eq_next.1 ht'
    exact ih u u' t t' (exec_sameBlock h hi hi') his his'

end Sys2Proof.Machine
end

section
/-! The bytes UPDATE offers: the frame cut into header, records and footer (spec/20_memory.md R33). -/

namespace Sys2Proof.Machine

/-! ## Runs of bytes of BUF -/

theorem readBytes_add (m : Memory) (a n k : Nat) :
    m.readBytes a (n + k) = m.readBytes a n ++ m.readBytes (a + n) k := by
  simp [Memory.readBytes, List.range_add, Nat.add_assoc]

theorem readBytes_eq_replicate {m : Memory} {a n : Nat} {v : Byte} (h : ∀ k, k < n → m.read (a + k) = v) :
    m.readBytes a n = List.replicate n v := by
  refine List.eq_replicate_iff.2 ⟨readBytes_length m a n, fun b hb => ?_⟩
  obtain ⟨k, hk, rfl⟩ := List.mem_map.1 hb
  exact h k (List.mem_range.1 hk)

/-- The bytes between header and footer are the records, LED 0 first (R35). -/
theorem readBytes_records (s : State) (n : Nat) :
    s.buf.readBytes (base 0) (4 * n) = ((List.range n).map s.record).flatten := by
  induction n with
  | zero => rfl
  | succ n ih =>
    have hbase : base 0 + 4 * n = base n := by simp [base]
    rw [Nat.mul_succ, readBytes_add, ih, hbase]
    simp [List.range_succ, State.record]

/-- The frame of a consistent, framed block has the layout of R33. -/
theorem frame_layout {s : State} (hcons : s.consistent) (hframed : s.framed) :
    s.frame = [0, 0, 0, 0] ++ ((List.range s.nLeds).map s.encoded).flatten
      ++ List.replicate (footerLen s.nLeds) 0 := by
  have hheader : s.buf.readBytes 0 4 = [0, 0, 0, 0] :=
    readBytes_eq_replicate fun k hk => hframed _ (.inl (by simp only [base]; omega))
  have hfooter : s.buf.readBytes (base s.nLeds) (footerLen s.nLeds) = List.replicate (footerLen s.nLeds) 0 :=
    readBytes_eq_replicate fun k _ => hframed _ (.inr (by omega))
  have hrecords : (List.range s.nLeds).map s.record = (List.range s.nLeds).map s.encoded :=
    List.map_congr_left fun i hi => hcons i (List.mem_range.1 hi)
  calc s.frame
      = s.buf.readBytes 0 4 ++ s.buf.readBytes (base 0) (4 * s.nLeds)
          ++ s.buf.readBytes (base s.nLeds) (footerLen s.nLeds) := by
        simp only [State.frame, frameLen, readBytes_add, Nat.zero_add, base, Nat.mul_zero, Nat.add_zero]
    _ = _ := by rw [hheader, readBytes_records, hrecords, hfooter]

/-! ## The offer -/

/-- UPDATE in RUN that completes has made one offer, of the whole frame, and taken the sink's answer (R120, R123). -/
theorem offer_of_exec_update {s t : State} (hrun : s.phase = .run) (h : exec .update s = .next t) :
    ∃ answer later, s.sink = answer :: later ∧ t.sink = later ∧ t.snk = s.snk ++ [⟨s.frame, answer⟩] := by
  rw [exec, execUpdate, inPhase_of_eq hrun] at h
  cases hsink : s.sink with
  | nil =>
    rw [sinkOffer_nil hsink] at h
    cases h
  | cons answer later =>
    simp only [sinkOffer_cons hsink] at h
    refine ⟨answer, later, rfl, ?_⟩
    split at h
    · cases h
      exact ⟨rfl, rfl⟩
    · split at h
      all_goals
        cases h
        exact ⟨rfl, rfl⟩

/-- Settles O13: the offer is the frame, and the frame has the wire layout. -/
theorem offeredFrameLayout : Obligations.OfferedFrameLayout := by
  intro s t hcons hframed hrun h
  obtain ⟨answer, -, -, -, hsnk⟩ := offer_of_exec_update hrun h
  exact ⟨answer, by rw [hsnk, frame_layout hcons hframed]⟩

end Sys2Proof.Machine
end

section
/-! GET_COLOUR after SET_COLOUR (spec/43_frame_encoder.md R111): the commands' equations in RUN, at a position in
range. -/

namespace Sys2Proof.Machine

@[simp] theorem renderAll_col (s : State) : (renderAll s).col = s.col := by rw [renderAll_eq]

@[simp] theorem renderAll_nLeds (s : State) : (renderAll s).nLeds = s.nLeds := by
  rw [State.nLeds, renderAll_col, State.nLeds]

@[simp] theorem renderAll_colour (s : State) (i : Nat) : (renderAll s).colour i = s.colour i := by
  rw [State.colour, renderAll_col, State.colour]

theorem store_colour_same {s : State} {k : Nat} (hk : k < s.nLeds) (c : Colour) : (store s k c).colour k = c :=
  (colour_set s k c k hk).trans (if_pos rfl)

section InRange
variable {s : State} {pos : BitVec 32} {k : Nat} (hrun : s.phase = .run) (hk : posIndex s.nLeds pos = some k)
include hrun hk

/-- SET_COLOUR in RUN at a position that names LED `k` (R106). -/
theorem exec_setColour_of_posIndex (c : Colour) :
    exec (.setColour pos c) s = .next ((store s k c).respond .ok []) := by
  rw [exec, execSetColour, inPhase_of_eq hrun, hk]
  rfl

/-- GET_COLOUR in RUN at a position that names LED `k` (R110). -/
theorem exec_getColour_of_posIndex : exec (.getColour pos) s = .next (s.respond .ok (s.colour k).bytes) := by
  rw [exec, execGetColour, inPhase_of_eq hrun, hk]
  rfl

end InRange

/-- SET_BRIGHTNESS in RUN (R114). -/
theorem exec_setBrightness_of_run {s : State} (hrun : s.phase = .run) (v : Byte) :
    exec (.setBrightness v) s = .next ((renderAll { s with gbright := v }).respond .ok []) := by
  rw [exec, execSetBrightness, inPhase_of_eq hrun]
  rfl

/-- After SET_COLOUR, at a position that names LED `k`, and SET_BRIGHTNESS the LED holds the colour set. -/
theorem execAll_setColour_setBrightness {s t : State} {pos : BitVec 32} {k : Nat} {c : Colour} {v : Byte}
    (hrun : s.phase = .run) (hk : posIndex s.nLeds pos = some k)
    (h : execAll [.setColour pos c, .setBrightness v] s = .next t) :
    t.phase = .run ∧ t.nLeds = s.nLeds ∧ t.colour k = c := by
  obtain ⟨x, hx, h⟩ := execAll_cons_eq_next.1 h
  rw [exec_setColour_of_posIndex hrun hk] at hx
  cases hx
  have hrun' : ((store s k c).respond .ok []).phase = .run := hrun
  obtain ⟨y, hy, h⟩ := execAll_cons_eq_next.1 h
  rw [exec_setBrightness_of_run hrun'] at hy
  cases hy
  cases h
  exact ⟨(renderAll_phase _).trans hrun', (renderAll_nLeds _).trans (store_nLeds s k c),
    (renderAll_colour _ k).trans (store_colour_same (posIndex_lt hk).1 c)⟩

/-- Settles O24: SET_BRIGHTNESS leaves COL alone, so the LED still holds the colour stored. -/
theorem getColourReturnsColourSet : Obligations.GetColourReturnsColourSet := by
  intro s t u pos c v hrun hlo hhi ht hu
  have hk : posIndex s.nLeds pos = some pos.toInt.toNat := posIndex_in hlo hhi
  obtain ⟨hrun', hn, hcolour⟩ := execAll_setColour_setBrightness hrun hk ht
  rw [exec_getColour_of_posIndex hrun' (hn ▸ hk), hcolour] at hu
  cases hu
  rfl

end Sys2Proof.Machine
end

section
/-! What each command leaves alone (spec/20_memory.md R40, R42, R47): read off its effect. -/

namespace Sys2Proof.Machine

/-! ## The loops over the records -/

theorem sameControl_renderAll (s : State) : sameControl s (renderAll s) := by
  rw [renderAll_eq]
  exact ⟨rfl, rfl, rfl, rfl, rfl, rfl, rfl⟩

theorem sameInputs_renderAll (s : State) : sameInputs s (renderAll s) := by
  rw [renderAll_eq]
  exact ⟨rfl, rfl, rfl⟩

theorem sameOutside_renderAll (s : State) : sameOutside s (renderAll s) (base 0) (base s.nLeds) :=
  read_renderAll_other s

theorem sameControl_storeFrom : ∀ (cs : List Colour) (s : State) (j : Nat), sameControl s (storeFrom s j cs)
  | [], _, _ => ⟨rfl, rfl, rfl, rfl, rfl, rfl, rfl⟩
  | c :: cs, s, j => sameControl_storeFrom cs (store s j c) (j + 1)

theorem sameInputs_storeFrom : ∀ (cs : List Colour) (s : State) (j : Nat), sameInputs s (storeFrom s j cs)
  | [], _, _ => ⟨rfl, rfl, rfl⟩
  | c :: cs, s, j => sameInputs_storeFrom cs (store s j c) (j + 1)

@[simp] theorem storeFrom_nLeds : ∀ (cs : List Colour) (s : State) (j : Nat), (storeFrom s j cs).nLeds = s.nLeds
  | [], _, _ => rfl
  | c :: cs, s, j => (storeFrom_nLeds cs (store s j c) (j + 1)).trans (store_nLeds s j c)

section StoreLoop
variable {cs : List Colour} {s : State} {j : Nat} (hlen : j + cs.length ≤ s.nLeds)
include hlen

theorem storeFrom_colour_other {i : Nat} (hi : i < j ∨ j + cs.length ≤ i) :
    (storeFrom s j cs).colour i = s.colour i := by
  obtain ⟨-, -, -, hcol, -⟩ := storeFrom_spec cs s j hlen
  exact hcol i hi

theorem storeFrom_colour {i : Nat} (hlo : j ≤ i) (hhi : i < j + cs.length) :
    (storeFrom s j cs).colour i = cs.getD (i - j) Colour.off := by
  obtain ⟨-, -, -, -, hcol, -⟩ := storeFrom_spec cs s j hlen
  exact hcol i hlo hhi

theorem storeFrom_record (hoff : s.offsetsOk) {i : Nat} (hlo : j ≤ i) (hhi : i < j + cs.length) :
    (storeFrom s j cs).record i = (storeFrom s j cs).encoded i := by
  obtain ⟨-, -, -, -, -, hrec, -⟩ := storeFrom_spec cs s j hlen
  exact hrec hoff i hlo hhi

theorem sameOutside_storeFrom : sameOutside s (storeFrom s j cs) (base j) (base (j + cs.length)) := by
  obtain ⟨-, -, -, -, -, -, -, hout⟩ := storeFrom_spec cs s j hlen
  exact hout

end StoreLoop

/-! ## The ports -/

/-- No command but UPDATE touches an input or an offer (R47, R122). -/
theorem Effect.sameInputs {s u : State} {i : Instr} (h : Effect s i u) (hi : i ≠ .update) : sameInputs s u := by
  cases h with
  | unchanged => exact ⟨rfl, rfl, rfl⟩
  | orderFailed => exact ⟨rfl, rfl, rfl⟩
  | orderSet => exact sameInputs_renderAll _
  | gammaSet => exact sameInputs_renderAll _
  | started => exact ⟨rfl, rfl, rfl⟩
  | colourSet => exact ⟨rfl, rfl, rfl⟩
  | coloursSet => exact sameInputs_storeFrom _ _ _
  | brightnessSet => exact sameInputs_renderAll _
  | cleared => exact sameInputs_storeFrom _ _ _
  | offered => exact absurd rfl hi

theorem sinkOffer_host {s u : State} {a : SinkAnswer} (h : sinkOffer s = some (a, u)) : u.host = s.host := by
  cases hs : s.sink with
  | nil => simp [sinkOffer_nil hs] at h
  | cons b later =>
    rw [sinkOffer_cons hs] at h
    cases h
    rfl

theorem Effect.host {s u : State} {i : Instr} (h : Effect s i u) : u.host = s.host := by
  by_cases hi : i = .update
  · subst hi
    cases h with
    | unchanged => rfl
    | offered _ ho => exact sinkOffer_host ho
  · obtain ⟨hhost, -, -⟩ := h.sameInputs hi
    exact hhost

theorem exec_sameInputs {i : Instr} {s t : State} (h : exec i s = .next t) (hi : i ≠ .update) :
    sameInputs s t := by
  obtain ⟨u, st, p, he, rfl⟩ := exec_completes h
  exact he.sameInputs hi

/-- Settles O52, by the effect of the command. -/
theorem commandsLeaveHostAlone : Obligations.CommandsLeaveHostAlone := by
  intro i s t h
  obtain ⟨u, st, p, he, rfl⟩ := exec_completes h
  exact he.host

/-! ## Reading commands -/

/-- The commands that write no state of the block (R42). -/
def Reads : Instr → Prop
  | .getColour _ | .snapshot | .getBrightness | .blend _ _ _ | .update => True
  | _ => False

theorem Effect.sameBlock_of_reads {s u : State} {i : Instr} (h : Effect s i u) (hi : Reads i) : sameBlock s u := by
  cases h with
  | unchanged => exact sameBlock_refl s
  | offered _ ho => exact sameBlock_sinkOffer ho
  | _ => exact hi.elim

theorem sameBlock_of_exec_reads {s t : State} {i : Instr} (h : exec i s = .next t) (hi : Reads i) :
    sameBlock s t := by
  obtain ⟨u, st, p, he, rfl⟩ := exec_completes h
  exact he.sameBlock_of_reads hi

/-- Settles O53: no reading command has an effect on the block, and only UPDATE has one on the ports. -/
theorem readersFrame : Obligations.ReadersFrame :=
  ⟨fun _ _ _ h => ⟨sameBlock_of_exec_reads h trivial, exec_sameInputs h nofun⟩,
    fun _ _ h => ⟨sameBlock_of_exec_reads h trivial, exec_sameInputs h nofun⟩,
    fun _ _ h => ⟨sameBlock_of_exec_reads h trivial, exec_sameInputs h nofun⟩,
    fun _ _ _ _ _ h => ⟨sameBlock_of_exec_reads h trivial, exec_sameInputs h nofun⟩,
    fun s t h => ⟨sameBlock_of_exec_reads h trivial, commandsLeaveHostAlone .update s t h⟩⟩

/-! ## Commands that store colours -/

theorem sameControl_refl (s : State) : sameControl s s := ⟨rfl, rfl, rfl, rfl, rfl, rfl, rfl⟩

/-- SET_COLOUR changes the colour and the record of the LED it names, or of none (R106). -/
theorem exec_setColour_frame {s t : State} {pos : BitVec 32} {c : Colour} (h : exec (.setColour pos c) s = .next t) :
    sameControl s t ∧ sameInputs s t ∧ (∀ j, posIndex s.nLeds pos ≠ some j → t.colour j = s.colour j) ∧
      (∀ a, (∀ i, posIndex s.nLeds pos = some i → a < base i ∨ base i + 4 ≤ a) →
        t.buf.read a = s.buf.read a) := by
  have hin : sameInputs s t := exec_sameInputs h nofun
  obtain ⟨u, st, p, he, rfl⟩ := exec_completes h
  cases he with
  | unchanged => exact ⟨sameControl_refl s, hin, fun _ _ => rfl, fun _ _ => rfl⟩
  | @colourSet _ k _ _ hk =>
    refine ⟨sameControl_refl s, hin, fun j hj => ?_, fun a ha => read_render_other _ k a (ha k hk)⟩
    have hkj : k ≠ j := fun e => hj (e ▸ hk)
    exact (colour_set s k c j (posIndex_lt hk).1).trans (if_neg hkj)

/-- SET_COLOURS changes the LEDs from 0 on, as many as it has entries for (R108). -/
theorem exec_setColours_frame {s t : State} {e : List Colour} (h : exec (.setColours e) s = .next t) :
    sameControl s t ∧ sameInputs s t ∧ (∀ j, (e.take s.nLeds).length ≤ j → t.colour j = s.colour j) ∧
      sameOutside s t (base 0) (base (e.take s.nLeds).length) := by
  have hin : sameInputs s t := exec_sameInputs h nofun
  obtain ⟨u, st, p, he, rfl⟩ := exec_completes h
  cases he with
  | unchanged => exact ⟨sameControl_refl s, hin, fun _ _ => rfl, fun _ _ => rfl⟩
  | coloursSet =>
    have hlen : 0 + (e.take s.nLeds).length ≤ s.nLeds := by simp
    have hout := sameOutside_storeFrom hlen
    rw [Nat.zero_add] at hout
    exact ⟨sameControl_storeFrom _ s 0, hin, fun j hj => storeFrom_colour_other hlen (.inr (by omega)), hout⟩

/-- CLEAR changes the colours and the records (R118). -/
theorem exec_clear_frame {s t : State} (h : exec .clear s = .next t) :
    sameControl s t ∧ sameInputs s t ∧ t.nLeds = s.nLeds ∧ sameOutside s t (base 0) (base s.nLeds) := by
  have hin : sameInputs s t := exec_sameInputs h nofun
  obtain ⟨u, st, p, he, rfl⟩ := exec_completes h
  cases he with
  | unchanged => exact ⟨sameControl_refl s, hin, rfl, fun _ _ => rfl⟩
  | cleared =>
    have hlen : 0 + (List.replicate s.nLeds Colour.off).length ≤ s.nLeds := by simp
    have hout := sameOutside_storeFrom hlen
    rw [Nat.zero_add, List.length_replicate] at hout
    exact ⟨sameControl_storeFrom _ s 0, hin, storeFrom_nLeds _ s 0, hout⟩

/-- Settles O54, by the frame of each of the three commands. -/
theorem storesFrame : Obligations.StoresFrame :=
  ⟨fun _ _ _ _ => exec_setColour_frame, fun _ _ _ => exec_setColours_frame, fun _ _ => exec_clear_frame⟩

/-! ## Commands that set a control field -/

/-- CFG_ORDER, whatever its string: the offsets and CFGERR are its own (R96). -/
theorem exec_cfgOrder_frame {s t : State} {str : List Byte} (h : exec (.cfgOrder str) s = .next t) :
    t.col = s.col ∧ t.gbright = s.gbright ∧ t.gmode = s.gmode ∧ t.phase = s.phase ∧
      sameOutside s t (base 0) (base s.nLeds) ∧ sameInputs s t := by
  have hin : sameInputs s t := exec_sameInputs h nofun
  obtain ⟨u, st, p, he, rfl⟩ := exec_completes h
  cases he with
  | unchanged => exact ⟨rfl, rfl, rfl, rfl, fun _ _ => rfl, hin⟩
  | orderFailed => exact ⟨rfl, rfl, rfl, rfl, fun _ _ => rfl, hin⟩
  | orderSet =>
    obtain ⟨hgb, hgm, -, -, -, hph, -⟩ := sameControl_renderAll { s with offR := _, offG := _, offB := _ }
    exact ⟨renderAll_col _, hgb, hgm, hph, fun a ha => read_renderAll_other _ a ha, hin⟩

/-- CFG_GAMMA: the mode is its own (R90). -/
theorem exec_cfgGamma_frame {s t : State} {mode : Byte} (h : exec (.cfgGamma mode) s = .next t) :
    t.col = s.col ∧ t.gbright = s.gbright ∧ t.offR = s.offR ∧ t.offG = s.offG ∧ t.offB = s.offB ∧
      t.phase = s.phase ∧ t.cfgerr = s.cfgerr ∧ sameOutside s t (base 0) (base s.nLeds) ∧ sameInputs s t := by
  have hin : sameInputs s t := exec_sameInputs h nofun
  obtain ⟨u, st, p, he, rfl⟩ := exec_completes h
  cases he with
  | unchanged => exact ⟨rfl, rfl, rfl, rfl, rfl, rfl, rfl, fun _ _ => rfl, hin⟩
  | gammaSet =>
    obtain ⟨hgb, -, hR, hG, hB, hph, hce⟩ := sameControl_renderAll { s with gmode := _ }
    exact ⟨renderAll_col _, hgb, hR, hG, hB, hph, hce, fun a ha => read_renderAll_other _ a ha, hin⟩

/-- INIT: PHASE is its own, and no byte of BUF changes (R104). -/
theorem exec_init_frame {s t : State} (h : exec .init s = .next t) :
    t.col = s.col ∧ t.buf = s.buf ∧ t.gbright = s.gbright ∧ t.gmode = s.gmode ∧ t.offR = s.offR ∧
      t.offG = s.offG ∧ t.offB = s.offB ∧ t.cfgerr = s.cfgerr ∧ sameInputs s t := by
  have hin : sameInputs s t := exec_sameInputs h nofun
  obtain ⟨u, st, p, he, rfl⟩ := exec_completes h
  cases he with
  | unchanged => exact ⟨rfl, rfl, rfl, rfl, rfl, rfl, rfl, rfl, hin⟩
  | started => exact ⟨rfl, rfl, rfl, rfl, rfl, rfl, rfl, rfl, hin⟩

/-- SET_BRIGHTNESS: GBRIGHT is its own (R114). -/
theorem exec_setBrightness_frame {s t : State} {v : Byte} (h : exec (.setBrightness v) s = .next t) :
    t.col = s.col ∧ t.gmode = s.gmode ∧ t.offR = s.offR ∧ t.offG = s.offG ∧ t.offB = s.offB ∧
      t.phase = s.phase ∧ t.cfgerr = s.cfgerr ∧ sameOutside s t (base 0) (base s.nLeds) ∧ sameInputs s t := by
  have hin : sameInputs s t := exec_sameInputs h nofun
  obtain ⟨u, st, p, he, rfl⟩ := exec_completes h
  cases he with
  | unchanged => exact ⟨rfl, rfl, rfl, rfl, rfl, rfl, rfl, fun _ _ => rfl, hin⟩
  | brightnessSet =>
    obtain ⟨-, hgm, hR, hG, hB, hph, hce⟩ := sameControl_renderAll { s with gbright := v }
    exact ⟨renderAll_col _, hgm, hR, hG, hB, hph, hce, fun a ha => read_renderAll_other _ a ha, hin⟩

/-- Settles O55, by the frame of each of the four commands. -/
theorem controlFrame : Obligations.ControlFrame :=
  ⟨fun _ _ _ => exec_cfgOrder_frame, fun _ _ _ => exec_cfgGamma_frame, fun _ _ => exec_init_frame,
    fun _ _ _ => exec_setBrightness_frame⟩

end Sys2Proof.Machine
end

section
/-! A command done twice leaves the block as done once (spec/20_memory.md R42): writing again what a record or a colour
already holds can't be told apart from not writing. -/

namespace Sys2Proof.Machine

/-! ## When two states look the same -/

theorem looksSame_of_sameBlock {s t : State} (h : sameBlock s t) : looksSame s t := by
  obtain ⟨hcol, hbuf, hctl⟩ := h
  exact ⟨hcol, fun a => by rw [hbuf], hctl⟩

/-- The bytes of a record determine what its indices read as. -/
theorem read_eq_of_record_eq {s t : State} {i a : Nat} (h : t.record i = s.record i) (hlo : base i ≤ a)
    (hhi : a < base i + 4) : t.buf.read a = s.buf.read a := by
  obtain ⟨k, rfl⟩ := Nat.exists_eq_add_of_le hlo
  have hk : k < 4 := by omega
  rw [State.record, State.record, Memory.readBytes, Memory.readBytes, List.map_inj_left] at h
  exact h k (List.mem_range.2 hk)

/-- States with the same colours and control fields look the same when the records of LEDs `j` to `n - 1` agree and so
does every byte outside them. -/
theorem looksSame_of_records {s t : State} {j n : Nat} (hcol : t.col = s.col) (hctl : sameControl s t)
    (hrec : ∀ i, j ≤ i → i < n → t.record i = s.record i) (hout : sameOutside s t (base j) (base n)) :
    looksSame s t := by
  refine ⟨hcol, fun a => ?_, hctl⟩
  by_cases ha : a < base j ∨ base n ≤ a
  · exact hout a ha
  · simp only [base] at ha
    exact read_eq_of_record_eq (i := (a - 4) / 4) (hrec _ (by omega) (by omega)) (by simp only [base]; omega)
      (by simp only [base]; omega)

theorem col_eq_of_colour {s t : State} (hn : t.nLeds = s.nLeds) (h : ∀ i, t.colour i = s.colour i) :
    t.col = s.col := by
  refine List.ext_getElem hn fun i hi hi' => ?_
  simpa [State.colour, hi, hi'] using h i

theorem encoded_eq_of_sameControl {s t : State} {i : Nat} (hctl : sameControl s t) (hcol : t.colour i = s.colour i) :
    t.encoded i = s.encoded i := by
  obtain ⟨hgb, hgm, hR, hG, hB, -, -⟩ := hctl
  rw [State.encoded, State.encoded, hcol, hgb, hgm, hR, hG, hB]

/-! ## Writing what is there -/

theorem renderAll_consistent {s : State} (hoff : s.offsetsOk) : (renderAll s).consistent := by
  have hrec := record_renderAll s hoff
  rw [renderAll_eq] at hrec ⊢
  exact hrec

/-- Writing every record of a consistent block again. -/
theorem looksSame_renderAll {s : State} (hoff : s.offsetsOk) (hcons : s.consistent) : looksSame s (renderAll s) :=
  looksSame_of_records (renderAll_col s) (sameControl_renderAll s)
    (fun i _ hi => (record_renderAll s hoff i hi).trans (hcons i hi).symm) (sameOutside_renderAll s)

/-- Storing colours the LEDs already have, over records that are already their encodings. -/
theorem looksSame_storeFrom {s : State} {j : Nat} {cs : List Colour} (hlen : j + cs.length ≤ s.nLeds)
    (hoff : s.offsetsOk) (hcol : ∀ i, j ≤ i → i < j + cs.length → s.colour i = cs.getD (i - j) Colour.off)
    (hrec : ∀ i, j ≤ i → i < j + cs.length → s.record i = s.encoded i) : looksSame s (storeFrom s j cs) := by
  have hctl := sameControl_storeFrom cs s j
  have hcolour : ∀ i, (storeFrom s j cs).colour i = s.colour i := fun i => by
    by_cases hi : j ≤ i ∧ i < j + cs.length
    · rw [storeFrom_colour hlen hi.1 hi.2, hcol i hi.1 hi.2]
    · exact storeFrom_colour_other hlen (by omega)
  refine looksSame_of_records (col_eq_of_colour (storeFrom_nLeds cs s j) hcolour) hctl (fun i hlo hhi => ?_)
    (sameOutside_storeFrom hlen)
  rw [storeFrom_record hlen hoff hlo hhi, encoded_eq_of_sameControl hctl (hcolour i), hrec i hlo hhi]

/-! ## Writing twice -/

/-- The store loop run again, after the response to its first run. -/
theorem looksSame_storeFrom_again {s : State} {j : Nat} {cs : List Colour} {st : Status} {p : List Byte}
    (hoff : s.offsetsOk) (hlen : j + cs.length ≤ s.nLeds) :
    looksSame ((storeFrom s j cs).respond st p) (storeFrom ((storeFrom s j cs).respond st p) j cs) := by
  obtain ⟨-, -, hR, hG, hB, -, -⟩ := sameControl_storeFrom cs s j
  have hoff' : (storeFrom s j cs).offsetsOk := by rwa [State.offsetsOk, hR, hG, hB]
  exact looksSame_storeFrom (by simpa using hlen) hoff' (fun _ => storeFrom_colour hlen)
    (fun _ => storeFrom_record hlen hoff)

/-- Every record written again, after the response to its first writing and from the state that this left. -/
theorem looksSame_renderAll_again {s t : State} {st : Status} {p : List Byte} (hoff : s.offsetsOk)
    (ht : t = (renderAll s).respond st p) : looksSame ((renderAll s).respond st p) (renderAll t) := by
  obtain ⟨-, -, hR, hG, hB, -, -⟩ := sameControl_renderAll s
  have hoff' : (renderAll s).offsetsOk := by rwa [State.offsetsOk, hR, hG, hB]
  rw [ht]
  exact looksSame_renderAll hoff' (renderAll_consistent hoff)

theorem looksSame_refl (s : State) : looksSame s s := looksSame_of_sameBlock (sameBlock_refl s)

/-- A command's effect after the same command's effect and its response: unless the first was none, the second can't be
told apart from none. -/
theorem Effect.again {s u v : State} {i : Instr} {st : Status} {p : List Byte} (hoff : s.offsetsOk)
    (h : Effect s i u) (h' : Effect (u.respond st p) i v) : sameBlock s u ∨ looksSame (u.respond st p) v := by
  cases h with
  | unchanged => exact .inl (sameBlock_refl s)
  | offered _ ho => exact .inl (sameBlock_sinkOffer ho)
  | orderFailed _ hv =>
    refine .inr ?_
    cases h' with
    | unchanged => exact looksSame_refl _
    | orderFailed => exact looksSame_refl _
    | orderSet _ hv' => simp [hv'] at hv
  | orderSet _ hv =>
    refine .inr ?_
    cases h' with
    | unchanged => exact looksSame_refl _
    | orderFailed _ hv' => simp [hv] at hv'
    | orderSet _ hv' =>
      cases hv.symm.trans hv'
      exact looksSame_renderAll_again (validate_distinct hv) (by rw [renderAll_eq]; rfl)
  | gammaSet _ hg =>
    refine .inr ?_
    cases h' with
    | unchanged => exact looksSame_refl _
    | gammaSet _ hg' =>
      cases hg.symm.trans hg'
      exact looksSame_renderAll_again hoff (by rw [renderAll_eq]; rfl)
  | started =>
    refine .inr ?_
    cases h' with
    | unchanged => exact looksSame_refl _
    | started hphase => cases hphase
  | colourSet c _ hk =>
    refine .inr ?_
    cases h' with
    | unchanged => exact looksSame_refl _
    | colourSet _ _ hk' =>
      rw [respond_nLeds, store_nLeds] at hk'
      cases hk.symm.trans hk'
      exact looksSame_storeFrom_again (cs := [c]) hoff (posIndex_lt hk).1
  | coloursSet e =>
    refine .inr ?_
    cases h' with
    | unchanged => exact looksSame_refl _
    | coloursSet =>
      rw [respond_nLeds, storeFrom_nLeds]
      exact looksSame_storeFrom_again hoff (by simp)
  | brightnessSet v =>
    refine .inr ?_
    cases h' with
    | unchanged => exact looksSame_refl _
    | brightnessSet => exact looksSame_renderAll_again hoff (by rw [renderAll_eq]; rfl)
  | cleared =>
    refine .inr ?_
    cases h' with
    | unchanged => exact looksSame_refl _
    | cleared =>
      rw [respond_nLeds, storeFrom_nLeds]
      exact looksSame_storeFrom_again hoff (by simp)

/-- Every command that completes twice leaves the block as once, from distinct offsets (R29). Where the first had no
effect on the block, the second does to it what the first did. -/
theorem exec_idempotent {i : Instr} {s t u : State} (hoff : s.offsetsOk) (ht : exec i s = .next t)
    (hu : exec i t = .next u) : looksSame t u := by
  obtain ⟨x, st, p, hx, rfl⟩ := exec_completes ht
  obtain ⟨y, st', p', hy, rfl⟩ := exec_completes hu
  obtain hsame | hlooks := hx.again hoff hy
  · exact looksSame_of_sameBlock (exec_sameBlock (s' := x.respond st p) hsame ht hu)
  · exact hlooks

/-- Settles O56: the five commands are among those of `exec_idempotent`, which holds of every command. -/
theorem writersAreIdempotent : Obligations.WritersAreIdempotent :=
  fun _ _ _ _ hoff _ => exec_idempotent hoff

end Sys2Proof.Machine
end

section
/-! The decoder and the encoder are inverse (spec/30_encoding.md R51-R56), and the packets R57 lists are exactly those
of no well-formed command. -/

namespace Sys2Proof

/-! ## The operand bytes a format accepts -/

section Formats
variable {c : Command} {bytes : List Byte} {i : Instr}

theorem operandsZ_eq_ok {j : Instr} : operandsZ c j bytes = .ok i ↔ bytes = [] ∧ i = j := by
  cases bytes <;> simp [operandsZ, eq_comm]

theorem operandsB_eq_ok {k : Byte → Except Illegal Instr} :
    operandsB c k bytes = .ok i ↔ ∃ v, bytes = [v] ∧ k v = .ok i := by
  unfold operandsB
  split <;> simp_all

theorem operandsP_eq_ok {k : BitVec 32 → Instr} :
    operandsP c k bytes = .ok i ↔ ∃ pos, bytes = be32Bytes pos ∧ i = k pos := by
  constructor
  · intro h
    unfold operandsP at h
    split at h
    · cases h
      exact ⟨_, (be32Bytes_be32 _ _ _ _).symm, rfl⟩
    · cases h
  · rintro ⟨pos, rfl, rfl⟩
    simp [be32Bytes, operandsP, be32_be32Bytes]

theorem operandsPC_eq_ok {k : BitVec 32 → Colour → Instr} :
    operandsPC c k bytes = .ok i ↔ ∃ pos x, bytes = be32Bytes pos ++ x.bytes ∧ i = k pos x := by
  constructor
  · intro h
    unfold operandsPC at h
    split at h
    · cases h
      exact ⟨_, ⟨_, _, _, _⟩, by rw [be32Bytes_be32]; rfl, rfl⟩
    · cases h
  · rintro ⟨pos, x, rfl, rfl⟩
    simp [be32Bytes, Colour.bytes, operandsPC, be32_be32Bytes]

theorem operandsL_eq_ok {k : List Colour → Instr} :
    operandsL c k bytes = .ok i ↔ ∃ e, bytes = coloursBytes e ∧ i = k e := by
  constructor
  · intro h
    unfold operandsL at h
    split at h
    · cases h
      exact ⟨_, (coloursBytes_of_some _ _ ‹_›).symm, rfl⟩
    · cases h
  · rintro ⟨e, rfl, rfl⟩
    simp [operandsL, coloursOfBytes_coloursBytes]

theorem operandsCCR_eq_ok {k : Colour → Colour → BitVec 16 → Instr} :
    operandsCCR c k bytes = .ok i ↔ ∃ o t q, bytes = o.bytes ++ t.bytes ++ be16Bytes q ∧ i = k o t q := by
  constructor
  · intro h
    unfold operandsCCR at h
    split at h
    · cases h
      exact ⟨⟨_, _, _, _⟩, ⟨_, _, _, _⟩, _, by rw [be16Bytes_be16]; rfl, rfl⟩
    · cases h
  · rintro ⟨o, t, q, rfl, rfl⟩
    simp [be16Bytes, Colour.bytes, operandsCCR, be16_be16Bytes]

end Formats

theorem gammaOperand_eq_ok {mode : Byte} {i : Instr} :
    gammaOperand mode = .ok i ↔ mode.toNat ≤ 2 ∧ i = .cfgGamma mode := by
  unfold gammaOperand
  split <;> simp_all [eq_comm]

/-! ## The two round trips -/

/-- The operand bytes of a well-formed command decode to it (R52, R53). -/
theorem decodeOperands_operandBytes {i : Instr} (hw : WellFormed i) :
    decodeOperands i.command i.operandBytes = .ok i := by
  cases i with
  | cfgOrder str => rfl
  | cfgGamma mode => exact gammaOperand_eq_ok.2 ⟨of_decide_eq_true hw, rfl⟩
  | init => rfl
  | setColour pos c => exact (operandsPC_eq_ok (c := .setColour)).2 ⟨pos, c, rfl, rfl⟩
  | setColours e => exact (operandsL_eq_ok (c := .setColours)).2 ⟨e, rfl, rfl⟩
  | getColour pos => exact (operandsP_eq_ok (c := .getColour)).2 ⟨pos, rfl, rfl⟩
  | snapshot => rfl
  | setBrightness v => rfl
  | getBrightness => rfl
  | clear => rfl
  | update => rfl
  | blend o t q => exact (operandsCCR_eq_ok (c := .blend)).2 ⟨o, t, q, rfl, rfl⟩

/-- Operand bytes that decode are those of a well-formed command with the opcode's name (R56). -/
theorem encoded_of_decodeOperands {c : Command} {bytes : List Byte} {i : Instr}
    (h : decodeOperands c bytes = .ok i) : i.command = c ∧ i.operandBytes = bytes ∧ WellFormed i := by
  cases c with
  | cfgOrder => cases h; exact ⟨rfl, rfl, rfl⟩
  | cfgGamma =>
    obtain ⟨mode, rfl, hmode⟩ := operandsB_eq_ok.1 h
    obtain ⟨hle, rfl⟩ := gammaOperand_eq_ok.1 hmode
    exact ⟨rfl, rfl, decide_eq_true hle⟩
  | init => obtain ⟨rfl, rfl⟩ := operandsZ_eq_ok.1 h; exact ⟨rfl, rfl, rfl⟩
  | setColour => obtain ⟨pos, x, rfl, rfl⟩ := operandsPC_eq_ok.1 h; exact ⟨rfl, rfl, rfl⟩
  | setColours => obtain ⟨e, rfl, rfl⟩ := operandsL_eq_ok.1 h; exact ⟨rfl, rfl, rfl⟩
  | getColour => obtain ⟨pos, rfl, rfl⟩ := operandsP_eq_ok.1 h; exact ⟨rfl, rfl, rfl⟩
  | snapshot => obtain ⟨rfl, rfl⟩ := operandsZ_eq_ok.1 h; exact ⟨rfl, rfl, rfl⟩
  | setBrightness => obtain ⟨v, rfl, hv⟩ := operandsB_eq_ok.1 h; cases hv; exact ⟨rfl, rfl, rfl⟩
  | getBrightness => obtain ⟨rfl, rfl⟩ := operandsZ_eq_ok.1 h; exact ⟨rfl, rfl, rfl⟩
  | clear => obtain ⟨rfl, rfl⟩ := operandsZ_eq_ok.1 h; exact ⟨rfl, rfl, rfl⟩
  | update => obtain ⟨rfl, rfl⟩ := operandsZ_eq_ok.1 h; exact ⟨rfl, rfl, rfl⟩
  | blend => obtain ⟨o, t, q, rfl, rfl⟩ := operandsCCR_eq_ok.1 h; exact ⟨rfl, rfl, rfl⟩

/-- Settles O2, by the round trip of the operand bytes of each format. -/
theorem decodeEncodeRoundTrip : Obligations.DecodeEncodeRoundTrip := fun i hw =>
  (decode_opcode i.command i.operandBytes).trans (decodeOperands_operandBytes hw)

/-- Settles O3: the first byte is the command's opcode, and the rest are its operand bytes. -/
theorem encodeDecodeRoundTrip : Obligations.EncodeDecodeRoundTrip := by
  intro p i h
  unfold decode at h
  split at h
  · cases h
  · split at h
    · cases h
    · obtain ⟨rfl, rfl, hw⟩ := encoded_of_decodeOperands h
      exact ⟨congrArg (· :: i.operandBytes) (opcode_of_ofOpcode ‹_›), hw⟩

/-- The decoder accepts exactly the packets of the well-formed commands, each as its command. -/
theorem decode_eq_ok_iff {p : Packet} {i : Instr} : decode p = .ok i ↔ encode i = p ∧ WellFormed i := by
  refine ⟨encodeDecodeRoundTrip p i, ?_⟩
  rintro ⟨rfl, hw⟩
  exact decodeEncodeRoundTrip i hw

/-! ## The illegal packets (R57) -/

open Machine

/-- The one command that is not well formed is a CFG_GAMMA with a reserved mode. -/
theorem wellFormed_iff {i : Instr} : WellFormed i ↔ ∀ mode, i = .cfgGamma mode → mode.toNat ≤ 2 := by
  cases i <;> simp [WellFormed, Instr.wf]

theorem lengthOk_encode (i : Instr) : i.command.format.lengthOk (encode i).length = true := by
  cases i with
  | setColours e => exact (Laws.PacketForm.setColours e).2
  | _ => rfl

theorem exists_be32Bytes : ∀ {bytes : List Byte}, bytes.length = 4 → ∃ pos, be32Bytes pos = bytes
  | [p1, p2, p3, p4], _ => ⟨be32 p1 p2 p3 p4, be32Bytes_be32 p1 p2 p3 p4⟩

theorem exists_be32Bytes_colour : ∀ {bytes : List Byte}, bytes.length = 8 →
    ∃ (pos : BitVec 32) (c : Colour), be32Bytes pos ++ c.bytes = bytes
  | [p1, p2, p3, p4, r, g, b, l], _ => ⟨be32 p1 p2 p3 p4, ⟨r, g, b, l⟩, by rw [be32Bytes_be32]; rfl⟩

theorem exists_colour_colour_be16Bytes : ∀ {bytes : List Byte}, bytes.length = 10 →
    ∃ (o t : Colour) (q : BitVec 16), o.bytes ++ t.bytes ++ be16Bytes q = bytes
  | [r, g, b, l, r', g', b', l', q1, q0], _ =>
    ⟨⟨r, g, b, l⟩, ⟨r', g', b', l'⟩, be16 q1 q0, by rw [be16Bytes_be16]; rfl⟩

theorem exists_coloursBytes {bytes : List Byte} (h : bytes.length % 4 = 0) : ∃ e, coloursBytes e = bytes := by
  cases he : coloursOfBytes bytes with
  | none => exact absurd h ((coloursOfBytes_eq_none bytes).1 he)
  | some e => exact ⟨e, coloursBytes_of_some bytes e he⟩

/-- Operand bytes of a length the format allows are those of some command, well formed or not. -/
theorem exists_instr_of_lengthOk {c : Command} {bytes : List Byte}
    (h : c.format.lengthOk (bytes.length + 1) = true) : ∃ i : Instr, i.command = c ∧ i.operandBytes = bytes := by
  cases c <;> simp only [Command.format, Format.lengthOk, Nat.reduceBeqDiff, Nat.add_sub_cancel, beq_iff_eq,
    List.length_eq_zero_iff] at h
  case cfgOrder => exact ⟨.cfgOrder bytes, rfl, rfl⟩
  case cfgGamma => obtain ⟨v, rfl⟩ := List.length_eq_one_iff.1 h; exact ⟨.cfgGamma v, rfl, rfl⟩
  case init => exact ⟨.init, rfl, h.symm⟩
  case setColour => obtain ⟨pos, c, rfl⟩ := exists_be32Bytes_colour h; exact ⟨.setColour pos c, rfl, rfl⟩
  case setColours => obtain ⟨e, rfl⟩ := exists_coloursBytes h; exact ⟨.setColours e, rfl, rfl⟩
  case getColour => obtain ⟨pos, rfl⟩ := exists_be32Bytes h; exact ⟨.getColour pos, rfl, rfl⟩
  case snapshot => exact ⟨.snapshot, rfl, h.symm⟩
  case setBrightness => obtain ⟨v, rfl⟩ := List.length_eq_one_iff.1 h; exact ⟨.setBrightness v, rfl, rfl⟩
  case getBrightness => exact ⟨.getBrightness, rfl, h.symm⟩
  case clear => exact ⟨.clear, rfl, h.symm⟩
  case update => exact ⟨.update, rfl, h.symm⟩
  case blend => obtain ⟨o, t, q, rfl⟩ := exists_colour_colour_be16Bytes h; exact ⟨.blend o t q, rfl, rfl⟩

/-- The packet of a well-formed command is none of those R57 lists. -/
theorem not_illegalPacket_encode {i : Instr} (hw : WellFormed i) : ¬ IllegalPacket (encode i) := by
  rintro (hnil | ⟨op, rest, hp, hop⟩ | ⟨c, rest, hp, hlen⟩ | ⟨mode, hp, hmode⟩)
  · cases hnil
  · cases hp
    exact hop i.command rfl
  · obtain ⟨rfl, -, -⟩ := encoded_of_decodeOperands
      ((decode_opcode c rest).symm.trans (hp ▸ decodeEncodeRoundTrip i hw))
    simp [lengthOk_encode] at hlen
  · obtain ⟨hle, -⟩ := gammaOperand_eq_ok.1
      ((decode_opcode .cfgGamma [mode]).symm.trans (hp ▸ decodeEncodeRoundTrip i hw))
    omega

/-- R57 leaves out no packet but those of the well-formed commands. -/
theorem exists_encode_of_not_illegalPacket {p : Packet} (h : ¬ IllegalPacket p) :
    ∃ i, WellFormed i ∧ encode i = p := by
  simp only [IllegalPacket, not_or] at h
  obtain ⟨hnil, hop, hlen, hmode⟩ := h
  obtain ⟨op, rest, rfl⟩ := List.exists_cons_of_ne_nil hnil
  obtain ⟨c, rfl⟩ : ∃ c : Command, c.opcode = op := by
    by_contra hnone
    exact hop ⟨op, rest, rfl, not_exists.1 hnone⟩
  obtain ⟨i, rfl, rfl⟩ : ∃ i : Instr, i.command = c ∧ i.operandBytes = rest :=
    exists_instr_of_lengthOk (by
      by_contra hbad
      exact hlen ⟨c, rest, rfl, Bool.eq_false_iff.2 hbad⟩)
  refine ⟨i, wellFormed_iff.2 fun mode hi => ?_, rfl⟩
  subst hi
  by_contra hle
  exact hmode ⟨mode, rfl, by omega⟩

/-- Settles O4: the packets R57 leaves are those of the well-formed commands, which are those the decoder accepts. -/
theorem decoderRefusesExactlyIllegal : Obligations.DecoderRefusesExactlyIllegal := by
  intro p
  cases hp : decode p with
  | ok i =>
    obtain ⟨rfl, hw⟩ := decode_eq_ok_iff.1 hp
    exact .inr ⟨not_illegalPacket_encode hw, i, hw, rfl⟩
  | error e =>
    refine .inl ⟨?_, e, rfl⟩
    by_contra hlegal
    obtain ⟨i, hw, rfl⟩ := exists_encode_of_not_illegalPacket hlegal
    rw [decodeEncodeRoundTrip i hw] at hp
    cases hp

/-- Settles O1, packet by packet. -/
theorem samplePacketsDecode : Obligations.SamplePacketsDecode := by
  refine ⟨?_, ?_, ?_, ?_, ?_, ?_, ?_, ?_, ?_, ?_, ?_, ?_⟩ <;> decide

end Sys2Proof
end

section
/-! What the assembler accepts (spec/30_encoding.md R64-R66). -/

namespace Sys2Proof.Machine

/-- The three mode words name no reserved mode (R64). -/
theorem toNat_le_two_of_modeLiteral {text : List Char} {mode : Byte} (h : modeLiteral text = some mode) :
    mode.toNat ≤ 2 := by
  unfold modeLiteral at h
  split at h <;> cases h <;> decide

/-- Only `cfg.gamma` gives a CFG_GAMMA, with its operand's mode. -/
theorem modeLiteral_of_assembleOperands {mnemonic : List Char} {ops : List (List Char)} {mode : Byte}
    (h : assembleOperands mnemonic ops = some (.cfgGamma mode)) : ∃ text, modeLiteral text = some mode := by
  unfold assembleOperands at h
  split at h
  case h_2 text => exact ⟨text, by simpa using h⟩
  case h_4 => split at h <;> cases h
  case h_12 => split at h <;> cases h
  all_goals simp at h

/-- Every command the assembler gives is well formed (R66). -/
theorem wellFormed_of_assembleLine {line : List Char} {i : Instr} (h : assembleLine line = some i) : WellFormed i := by
  refine wellFormed_iff.2 fun mode hi => ?_
  subst hi
  obtain ⟨text, htext⟩ := modeLiteral_of_assembleOperands h
  exact toNat_le_two_of_modeLiteral htext

/-- Settles O59, by the well-formedness of what is assembled and the decoder's round trip. -/
theorem assembledLinesAreLegal : Obligations.AssembledLinesAreLegal := by
  intro line p h
  obtain ⟨i, hline, rfl⟩ := Option.map_eq_some_iff.1 h
  have hw := wellFormed_of_assembleLine hline
  exact ⟨i, hw, hline, decodeEncodeRoundTrip i hw⟩

end Sys2Proof.Machine
end

section
/-! The one response of every command that completes (spec/30_encoding.md R59, R61), and CFG_GAMMA's answer to a
reserved mode (log entry 9). -/

namespace Sys2Proof.Machine

/-! ## RSP before the response -/

@[simp] theorem renderAll_rsp (s : State) : (renderAll s).rsp = s.rsp := by rw [renderAll_eq]

@[simp] theorem storeFrom_rsp : ∀ (cs : List Colour) (s : State) (j : Nat), (storeFrom s j cs).rsp = s.rsp
  | [], _, _ => rfl
  | c :: cs, s, j => storeFrom_rsp cs (store s j c) (j + 1)

/-- All an answered offer does (R123). -/
theorem sinkOffer_eq_some {s u : State} {a : SinkAnswer} (h : sinkOffer s = some (a, u)) :
    ∃ later, s.sink = a :: later ∧ u = { s with sink := later, snk := s.snk ++ [⟨s.frame, a⟩] } := by
  cases hs : s.sink with
  | nil => simp [sinkOffer_nil hs] at h
  | cons b later =>
    rw [sinkOffer_cons hs] at h
    cases h
    exact ⟨later, rfl, rfl⟩

/-- A command's effect puts nothing on RSP: what stands there comes from its one response. -/
theorem Effect.rsp {s u : State} {i : Instr} (h : Effect s i u) : u.rsp = s.rsp := by
  cases h with
  | unchanged => rfl
  | orderFailed => rfl
  | orderSet => exact renderAll_rsp _
  | gammaSet => exact renderAll_rsp _
  | started => rfl
  | colourSet => rfl
  | coloursSet => exact storeFrom_rsp _ _ _
  | brightnessSet => exact renderAll_rsp _
  | cleared => exact storeFrom_rsp _ _ _
  | offered _ ho =>
    obtain ⟨later, -, rfl⟩ := sinkOffer_eq_some ho
    rfl

/-! ## The payload -/

/-- The payload a response to command `c` may carry in a block of `n` LEDs (R61). -/
def Response.Fits (n : Nat) (c : Command) (r : Response) : Prop :=
  (r.status ≠ .ok → r.payload = []) ∧ (r.status = .ok → r.payload.length = payloadLength n c)

/-- If a next state comes out, its latest response fits. -/
def LastFits (n : Nat) (c : Command) (out : Result) : Prop :=
  ∀ t r, out = .next t → t.rsp.getLast? = some r → r.Fits n c

section LastFits
variable {n : Nat} {c : Command}

theorem lastFits_reply {p : List Byte} (h : p.length = payloadLength n c) (u : State) : LastFits n c (reply p u) := by
  rintro t r ht hr
  obtain rfl := (reply_eq_next p u t).1 ht
  obtain rfl : ⟨.ok, p⟩ = r := by simpa using hr
  exact ⟨fun hne => absurd rfl hne, fun _ => h⟩

theorem lastFits_raise {st : Status} (h : st ≠ .ok) (u : State) : LastFits n c (raise st u) := by
  rintro t r ht hr
  obtain rfl := (raise_eq_next st u t).1 ht
  obtain rfl : ⟨st, []⟩ = r := by simpa using hr
  exact ⟨fun _ => rfl, fun hok => absurd hok h⟩

theorem lastFits_inPhase {p : Phase} {s : State} {go : Result} (h : LastFits n c go) :
    LastFits n c (inPhase p s go) := by
  unfold inPhase
  split
  · exact h
  · exact lastFits_raise (by decide) s

end LastFits

theorem exec_lastFits (i : Instr) (s : State) : LastFits s.nLeds i.command (exec i s) := by
  cases i with
  | cfgOrder str =>
    refine lastFits_inPhase ?_
    split
    · exact lastFits_raise (by decide) _
    · exact lastFits_raise (by decide) _
    · exact lastFits_reply rfl _
  | cfgGamma mode =>
    simp only [exec, execCfgGamma]
    split
    · exact lastFits_raise (by decide) _
    · exact lastFits_inPhase (lastFits_reply rfl _)
  | init =>
    refine lastFits_inPhase ?_
    split
    · exact lastFits_raise (by decide) _
    · exact lastFits_reply rfl _
  | setColour pos c =>
    refine lastFits_inPhase ?_
    split <;> exact lastFits_reply rfl _
  | setColours e => exact lastFits_inPhase (lastFits_reply rfl _)
  | getColour pos =>
    refine lastFits_inPhase ?_
    split <;> exact lastFits_reply rfl _
  | snapshot => exact lastFits_inPhase (lastFits_reply (coloursBytes_length s.col) _)
  | setBrightness v => exact lastFits_inPhase (lastFits_reply rfl _)
  | getBrightness => exact lastFits_inPhase (lastFits_reply rfl _)
  | clear => exact lastFits_inPhase (lastFits_reply rfl _)
  | update =>
    refine lastFits_inPhase ?_
    split
    · rintro t r ht
      cases ht
    · split
      · exact lastFits_raise (by decide) _
      · split
        · exact lastFits_raise (by decide) _
        · exact lastFits_reply rfl _
  | blend o t q => exact lastFits_reply rfl s

/-- Settles O44: the effect leaves RSP alone, so the one response is the latest, whose payload fits. -/
theorem oneResponsePerCommand : Obligations.OneResponsePerCommand := by
  intro i s t h
  obtain ⟨u, st, payload, he, rfl⟩ := exec_completes h
  obtain ⟨herr, hok⟩ := exec_lastFits i s _ ⟨st, payload⟩ h (by simp)
  exact ⟨st, payload, by simp [responds, he.rsp], herr, hok⟩

/-- Settles O17: a reserved byte names no mode. -/
theorem cfgGammaReservedMode : Obligations.CfgGammaReservedMode := by
  intro s b hb
  simp [exec, execCfgGamma, gmodeOf_reserved hb, raise]

end Sys2Proof.Machine
end

section
/-! BLEND: the integer law of one channel (spec/40_colour_model.md R77), its bounds (R79) and its reading over the
rationals (R76). -/

namespace Sys2Proof.Machine

/-! ## The step from the original at a ratio between 0 and 1 -/

section ChannelStep
variable {d q : Int} (hq : 0 < q) (hq' : q < 256)
include hq hq'

/-- Blending up, the floored step falls short of the difference. -/
theorem channelStep_of_pos (hd : 0 < d) : 0 ≤ d * q / 256 ∧ d * q / 256 < d :=
  ⟨Int.ediv_nonneg (by positivity) (by norm_num),
    Int.ediv_lt_of_lt_mul (by norm_num) (Int.mul_lt_mul_of_pos_left hq' hd)⟩

/-- Blending down, the floor moves at least one step and not past the difference. -/
theorem channelStep_of_neg (hd : d < 0) : d ≤ d * q / 256 ∧ d * q / 256 < 0 :=
  ⟨Int.le_ediv_of_mul_le (by norm_num) (Int.mul_le_mul_of_nonpos_left hd.le hq'.le),
    Int.ediv_neg_of_neg_of_pos (Int.mul_neg_of_neg_of_pos hd hq) (by norm_num)⟩

end ChannelStep

/-! ## One channel -/

section Channel
variable {o t : Byte} {q : BitVec 16}

theorem blend8_of_nonpos (hq : q.toInt ≤ 0) : blend8 o t q = o := by
  simp [blend8, blendInt, ratio, hq]

theorem blend8_of_ge (hq : 256 ≤ q.toInt) : blend8 o t q = t := by
  have hpos : ¬ q.toInt ≤ 0 := by omega
  simp [blend8, blendInt, ratio, hpos, hq]

/-- Between the ends the interpolated sum is in the range of a byte (R79). -/
theorem interpolation_mem_byte (hq : 0 < q.toInt) (hq' : q.toInt < 256) :
    0 ≤ (o.toNat : Int) + (t.toNat - o.toNat) * q.toInt / 256 ∧
      (o.toNat : Int) + (t.toNat - o.toNat) * q.toInt / 256 < 256 := by
  have ho : o.toNat < 256 := o.isLt
  have ht : t.toNat < 256 := t.isLt
  rcases lt_trichotomy ((t.toNat : Int) - o.toNat) 0 with hd | hd | hd
  · have hstep := channelStep_of_neg hq hq' hd
    omega
  · rw [hd]
    omega
  · have hstep := channelStep_of_pos hq hq' hd
    omega

/-- The law between the ends (R77): the byte is the whole sum, nothing wraps. -/
theorem toNat_blend8 (hq : 0 < q.toInt) (hq' : q.toInt < 256) :
    ((blend8 o t q).toNat : Int) = o.toNat + (t.toNat - o.toNat) * q.toInt / 256 := by
  obtain ⟨hlo, hhi⟩ := interpolation_mem_byte (o := o) (t := t) hq hq'
  rw [blend8, blendInt, ratio, if_neg (by omega), if_neg (by omega), BitVec.toNat_ofInt,
    Int.toNat_of_nonneg (Int.emod_nonneg _ (by norm_num))]
  exact Int.emod_eq_of_lt hlo hhi

theorem blend8_self : blend8 o o q = o := by simp [blend8, blendInt]

/-- The three cases of R77 for the model's channel. -/
theorem blendsTo_blend8 : blendsTo o t (blend8 o t q) q.toInt := by
  refine ⟨blend8_of_nonpos, blend8_of_ge, fun hq hq' => ?_⟩
  rw [toNat_blend8 hq hq', Int.fdiv_eq_ediv_of_nonneg _ (by norm_num)]

end Channel

/-- The floor over the rationals is the division of the integer form (R76, R77). -/
theorem floor_interpolation (o d q : Int) : ⌊(o : ℚ) + (d : ℚ) * ((q : ℚ) / 256)⌋ = o + d * q / 256 := by
  have hdiv : ⌊((d * q : Int) : ℚ) / 256⌋ = d * q / 256 := by
    exact_mod_cast Rat.floor_intCast_div_natCast (d * q) 256
  rw [← mul_div_assoc, Int.floor_intCast_add, ← Int.cast_mul, hdiv]

/-! ## The packet -/

/-- Format CCR refuses every length but its own (R51, R57). -/
theorem operandsCCR_of_length_ne {c : Command} {k : Colour → Colour → BitVec 16 → Instr} {bytes : List Byte}
    (h : bytes.length ≠ 10) : operandsCCR c k bytes = .error (.wrongLength c) := by
  unfold operandsCCR
  split
  · exact absurd rfl h
  · rfl

/-! ## The obligations -/

/-- Settles O36: the decoder's round trip, and the three cases of R77 for each channel. -/
theorem blendResult : Obligations.BlendResult := fun _ o t q =>
  ⟨decodeEncodeRoundTrip (.blend o t q) rfl,
    fun ops h => (decode_opcode .blend ops).trans (operandsCCR_of_length_ne h),
    blend o t q, rfl, blendsTo_blend8, blendsTo_blend8, blendsTo_blend8, blendsTo_blend8⟩

/-- Settles O37: the ratio's three ranges are those of `q`, and `floor_interpolation` gives the one between. -/
theorem blendIsTruncatedInterpolation : Obligations.BlendIsTruncatedInterpolation := by
  intro o t q
  refine ⟨fun h => blend8_of_nonpos ?_, fun h => blend8_of_ge ?_, fun h h' => ?_⟩
  · have hq : (q.toInt : ℚ) ≤ 0 := by linarith
    exact_mod_cast hq
  · have hq : (256 : ℚ) ≤ q.toInt := by linarith
    exact_mod_cast hq
  · have hq : (0 : ℚ) < q.toInt := by linarith
    have hq' : (q.toInt : ℚ) < 256 := by linarith
    rw [toNat_blend8 (by exact_mod_cast hq) (by exact_mod_cast hq'), ← floor_interpolation]
    push_cast
    rfl

/-- Settles O38, by the sign of the difference. -/
theorem blendBounds : Obligations.BlendBounds := by
  refine fun o t q => ⟨fun h => h ▸ blend8_self, fun hq hq' hlt => ?_, fun hq hq' hlt => ?_⟩
  · have hstep := channelStep_of_pos hq hq' (d := (t.toNat : Int) - o.toNat) (by omega)
    have hsum := toNat_blend8 (o := o) (t := t) hq hq'
    omega
  · have hstep := channelStep_of_neg hq hq' (d := (t.toNat : Int) - o.toNat) (by omega)
    have hsum := toNat_blend8 (o := o) (t := t) hq hq'
    omega

end Sys2Proof.Machine
end

section
/-! Gamma: the table (spec/41_gamma.md R83), what each mode writes to a record (R86-R89), CFG_GAMMA (R90), and the
configuration frozen in RUN (R91, R98, R159). -/

namespace Sys2Proof.Machine

/-! ## The table -/

@[simp] theorem tableOf_zero (f : Byte → Byte) : tableOf f 0 = 0 := rfl

@[simp] theorem tableOf_last (f : Byte → Byte) : tableOf f 255 = 255 := if_pos rfl

/-- Below the last entry the table is the running maximum; nothing wraps. -/
theorem toNat_tableOf_of_lt (f : Byte → Byte) {i : Byte} (hi : i.toNat < 255) :
    (tableOf f i).toNat = runningMax f i.toNat := by
  have hne : i ≠ 255 := by
    rintro rfl
    exact absurd hi (by decide)
  rw [tableOf, if_neg hne]
  exact Nat.mod_eq_of_lt (runningMax_lt f i.toNat)

/-- Property G3, for a table made from any raw values. -/
theorem tableOf_le_succ (f : Byte → Byte) {i : Byte} (hi : i.toNat < 255) :
    (tableOf f i).toNat ≤ (tableOf f (i + 1)).toNat := by
  by_cases hlast : i + 1 = 255
  · rw [hlast, tableOf_last]
    exact Nat.le_of_lt_succ (tableOf f i).isLt
  · have hne : (i + 1).toNat ≠ 255 := fun h => hlast (BitVec.eq_of_toNat_eq h)
    have hnext : (i + 1).toNat < 255 := by omega
    rw [toNat_tableOf_of_lt f hi, toNat_tableOf_of_lt f hnext, BitVec.toNat_add_of_lt (Nat.succ_lt_succ hi)]
    exact runningMax_mono f (Nat.le_add_right _ _)

/-- Settles O40: the three properties hold of the table made from any raw values. -/
theorem gammaTableProperties : Obligations.GammaTableProperties :=
  ⟨tableOf_zero _, tableOf_last _, fun _ => tableOf_le_succ _⟩

/-- The running maximum of values that start at 0 and never fall is the value reached. -/
theorem runningMax_eq_of_le_succ {T : Byte → Byte} (hzero : T 0 = 0)
    (hmono : ∀ i : Byte, i.toNat < 255 → (T i).toNat ≤ (T (i + 1)).toNat) :
    ∀ k, k ≤ 255 → runningMax T k = (T (BitVec.ofNat 8 k)).toNat
  | 0, _ => (congrArg BitVec.toNat hzero).symm
  | k + 1, hk => by
    have hlt : (BitVec.ofNat 8 k).toNat < 255 := by
      rw [BitVec.toNat_ofNat]
      omega
    have hstep := hmono _ hlt
    rw [show BitVec.ofNat 8 k + 1 = BitVec.ofNat 8 (k + 1) from (BitVec.ofNat_add k 1).symm] at hstep
    rw [runningMax, runningMax_eq_of_le_succ hzero hmono k (by omega), Nat.max_eq_right hstep]

/-- Settles O41: on such a table the running maximum changes no entry. -/
theorem everyGammaTableAllowed : Obligations.EveryGammaTableAllowed := by
  intro T hzero hlast hmono
  funext i
  by_cases hi : i = 255
  · rw [hi, tableOf_last, hlast]
  · rw [tableOf, if_neg hi, runningMax_eq_of_le_succ hzero hmono i.toNat (Nat.le_of_lt_succ i.isLt),
      BitVec.ofNat_toNat, BitVec.ofNat_toNat, BitVec.setWidth_eq, BitVec.setWidth_eq]

/-! ## What the modes write -/

/-- The three channel bytes of a record, each channel of `x` at its offset (R34). -/
def channelBytes (x : Colour) (offR offG offB : Slot) : List Byte :=
  (([0, 0, 0].set (offR.index - 1) x.r).set (offG.index - 1) x.g).set (offB.index - 1) x.b

/-- A record is the brightness byte of the effective L, then the corrected channels. -/
theorem encodeRecord_eq_cons (k : Corrector) (c : Colour) (gb : Byte) (mode : GMode) (r g b : Slot) :
    encodeRecord k c gb mode r g b
      = brightnessByte (effL gb c.l) :: channelBytes (k.corrected mode (working gb c)) r g b := by
  cases r <;> cases g <;> cases b <;> rfl

/-- The custom function alone sees the effective L (R89). -/
theorem channelBytes_corrected_of_ne_custom {mode : GMode} (hmode : mode ≠ .customCorrection) (k : Corrector)
    (c : Colour) (gb gb' : Byte) (r g b : Slot) :
    channelBytes (k.corrected mode (working gb c)) r g b
      = channelBytes (k.corrected mode (working gb' c)) r g b := by
  cases mode with
  | noCorrection => rfl
  | tableCorrection => rfl
  | customCorrection => exact absurd rfl hmode

/-- Settles O29: the tail of a record is its channel bytes. -/
theorem channelBytesIgnoreBrightness : Obligations.ChannelBytesIgnoreBrightness := by
  intro k c gb gb' mode r g b hmode
  rw [encodeRecord_eq_cons, encodeRecord_eq_cons, List.tail_cons, List.tail_cons,
    channelBytes_corrected_of_ne_custom hmode]

/-- Settles O42, by the form of a record: at these offsets its channel bytes are the corrected channels. -/
theorem gammaModes : Obligations.GammaModes := fun _ _ _ =>
  ⟨encodeRecord_eq_cons .., encodeRecord_eq_cons .., encodeRecord_eq_cons ..⟩

/-! ## CFG_GAMMA -/

theorem wellFormed_cfgGamma_code (g : GMode) : WellFormed (.cfgGamma g.code) := by
  cases g <;> rfl

theorem gammaOperand_reserved {b : Byte} (hb : 2 < b.toNat) : gammaOperand b = .error (.reservedMode b) :=
  if_neg (Nat.not_le_of_lt hb)

/-- Format B refuses every length but its own (R51, R57). -/
theorem operandsB_of_length_ne {c : Command} {k : Byte → Except Illegal Instr} {bytes : List Byte}
    (h : bytes.length ≠ 1) : operandsB c k bytes = .error (.wrongLength c) := by
  unfold operandsB
  split
  · exact absurd rfl h
  · rfl

/-- CFG_GAMMA of a mode is the phase check, the mode set and every record written again (R90). -/
theorem exec_cfgGamma_code (g : GMode) (s : State) :
    exec (.cfgGamma g.code) s = inPhase .config s (reply [] (renderAll { s with gmode := g })) := by
  rw [exec, execCfgGamma, gmodeOf_code]

theorem renderAll_gmode (s : State) : (renderAll s).gmode = s.gmode := by rw [renderAll_eq]

/-- Settles O16: the decoder's checks, the phase check, and the re-encode with the command's frame. -/
theorem cfgGammaResult : Obligations.CfgGammaResult := by
  intro s g
  refine ⟨decodeEncodeRoundTrip _ (wellFormed_cfgGamma_code g),
    fun b hb => (decode_opcode .cfgGamma [b]).trans (gammaOperand_reserved hb),
    fun ops hops => (decode_opcode .cfgGamma ops).trans (operandsB_of_length_ne hops),
    fun hphase => (exec_cfgGamma_code g s).trans (inPhase_of_ne hphase _), fun hphase => ?_⟩
  have hexec : exec (.cfgGamma g.code) s = .next ((renderAll { s with gmode := g }).respond .ok []) :=
    (exec_cfgGamma_code g s).trans (inPhase_of_eq hphase _)
  have hresp : responds s ((renderAll { s with gmode := g }).respond .ok []) .ok [] := by
    rw [responds, respond_rsp, renderAll_rsp]
  have hrec : s.offsetsOk → ∀ i, i < s.nLeds → (renderAll { s with gmode := g }).record i
      = encodeRecord corrector (s.colour i) s.gbright g s.offR s.offG s.offB :=
    record_renderAll { s with gmode := g }
  obtain ⟨hcol, hgb, hR, hG, hB, hph, hce, hout, hin⟩ := exec_cfgGamma_frame hexec
  exact ⟨_, hexec, hresp, renderAll_gmode _, hrec, hout, hcol, hgb, hR, hG, hB, hph, hce, hin⟩

/-! ## The configuration in RUN -/

/-- Agreement of the control fields, with GBRIGHT left out. -/
theorem sameControl_but_gbright {s u : State} (h : sameControl s u) :
    sameControl { s with gbright := u.gbright } u := by
  obtain ⟨-, hrest⟩ := h
  exact ⟨rfl, hrest⟩

/-- In RUN the one control field a command changes is GBRIGHT. -/
theorem Effect.sameControl_of_run {s u : State} {i : Instr} (h : Effect s i u) (hrun : s.phase = .run) :
    sameControl { s with gbright := u.gbright } u := by
  have hnot : s.phase ≠ .config := by simp [hrun]
  cases h with
  | unchanged => exact sameControl_refl s
  | orderFailed hconfig => exact absurd hconfig hnot
  | orderSet hconfig => exact absurd hconfig hnot
  | gammaSet hconfig => exact absurd hconfig hnot
  | started hconfig => exact absurd hconfig hnot
  | colourSet => exact sameControl_refl s
  | coloursSet => exact sameControl_but_gbright (sameControl_storeFrom _ s 0)
  | brightnessSet v =>
    exact sameControl_but_gbright (s := { s with gbright := v }) (sameControl_renderAll { s with gbright := v })
  | cleared => exact sameControl_but_gbright (sameControl_storeFrom _ s 0)
  | offered _ ho =>
    obtain ⟨-, -, hctl⟩ := sameBlock_sinkOffer ho
    exact sameControl_but_gbright hctl

/-- Settles O50, by the effect of the command in RUN. -/
theorem configurationFrozenInRun : Obligations.ConfigurationFrozenInRun := by
  intro i s t hrun h
  obtain ⟨u, st, p, he, rfl⟩ := exec_completes h
  obtain ⟨-, hgm, hR, hG, hB, hph, -⟩ := he.sameControl_of_run hrun
  exact ⟨hR, hG, hB, hgm, hph.trans hrun⟩

end Sys2Proof.Machine
end

section
/-! CFG_ORDER (spec/42_channel_order.md R96) and the offsets an order string gives (R93-R95, R97). -/

namespace Sys2Proof.Machine

/-! ## The places of the letters -/

theorem slotAfter_index {k : Nat} (hk : k < 3) : (slotAfter k).index = k + 1 := by
  match k, hk with
  | 0, _ => rfl
  | 1, _ => rfl
  | 2, _ => rfl

theorem isR_iff {ch : Byte} : isR ch = true ↔ ch = 0x72 ∨ ch = 0x52 := by simp [isR]
theorem isG_iff {ch : Byte} : isG ch = true ↔ ch = 0x67 ∨ ch = 0x47 := by simp [isG]
theorem isB_iff {ch : Byte} : isB ch = true ↔ ch = 0x62 ∨ ch = 0x42 := by simp [isB]

/-- A place that holds another character is not the first place of a letter. -/
theorem ne_findIdx_of_getElem? {p : Byte → Bool} {str : List Byte} {k : Nat} {ch : Byte} (hk : str[k]? = some ch)
    (hch : p ch = false) : k ≠ str.findIdx p := by
  rintro rfl
  obtain ⟨hlt, rfl⟩ := List.getElem?_eq_some_iff.1 hk
  rw [List.findIdx_getElem (w := hlt)] at hch
  cases hch

theorem eq_false_of_excludes {p q : Bool} (h : p = true → q = false) (hq : q = true) : p = false :=
  Bool.eq_false_iff.2 fun hp => Bool.false_ne_true ((h hp).symm.trans hq)

/-- In a valid string a letter stands at one place only, the one its offset names: the other two places are taken by
the other two letters (R94, R95). -/
theorem offset_of_validate {str : List Byte} {r g b : Slot} (h : validate str = .valid r g b) {k : Nat} {ch : Byte}
    (hk : str[k]? = some ch) :
    (isR ch = true → r.index = k + 1) ∧ (isG ch = true → g.index = k + 1) ∧ (isB ch = true → b.index = k + 1) := by
  obtain ⟨hrg, hrb, hgb⟩ := validate_distinct h
  obtain ⟨hall, hlen, rfl, rfl, rfl⟩ := validate_eq_valid h
  simp only [Bool.and_eq_true] at hall
  obtain ⟨⟨hr, hg⟩, hb⟩ := hall
  have ltR := findIdx_lt hr
  have ltG := findIdx_lt hg
  have ltB := findIdx_lt hb
  have hk3 : k < str.length := (List.getElem?_eq_some_iff.1 hk).1
  rw [hlen] at ltR ltG ltB hk3
  have neRG := ne_of_apply_ne slotAfter hrg
  have neRB := ne_of_apply_ne slotAfter hrb
  have neGB := ne_of_apply_ne slotAfter hgb
  obtain ⟨hR, hG⟩ := letters_disjoint ch
  refine ⟨fun hch => ?_, fun hch => ?_, fun hch => ?_⟩
  · have notG := ne_findIdx_of_getElem? hk (hR hch).1
    have notB := ne_findIdx_of_getElem? hk (hR hch).2
    rw [slotAfter_index ltR]
    omega
  · have notR := ne_findIdx_of_getElem? hk (eq_false_of_excludes (fun hr' => (hR hr').1) hch)
    have notB := ne_findIdx_of_getElem? hk (hG hch)
    rw [slotAfter_index ltG]
    omega
  · have notR := ne_findIdx_of_getElem? hk (eq_false_of_excludes (fun hr' => (hR hr').2) hch)
    have notG := ne_findIdx_of_getElem? hk (eq_false_of_excludes hG hch)
    rw [slotAfter_index ltB]
    omega

/-- Settles O15: the six orders by both checks of R94, the others by the check that fails. -/
theorem orderStringTable : Obligations.OrderStringTable :=
  ⟨validate_valid rfl rfl, validate_valid rfl rfl, validate_valid rfl rfl, validate_valid rfl rfl,
    validate_valid rfl rfl, validate_valid rfl rfl, validate_valid rfl rfl, validate_missing rfl,
    validate_missing rfl, validate_malformed rfl (by decide)⟩

/-! ## CFG_ORDER -/

section InConfig
variable {s : State} {str : List Byte} (hphase : s.phase = .config)
include hphase

theorem exec_cfgOrder_missing (hv : validate str = .missing) :
    exec (.cfgOrder str) s = .next ((setCfgErr s).respond .errOrderMissing []) := by
  rw [exec, execCfgOrder, inPhase_of_eq hphase, hv]
  rfl

theorem exec_cfgOrder_malformed (hv : validate str = .malformed) :
    exec (.cfgOrder str) s = .next ((setCfgErr s).respond .errOrderMalformed []) := by
  rw [exec, execCfgOrder, inPhase_of_eq hphase, hv]
  rfl

theorem exec_cfgOrder_valid {r g b : Slot} (hv : validate str = .valid r g b) :
    exec (.cfgOrder str) s
      = .next ((renderAll { s with offR := r, offG := g, offB := b }).respond .ok []) := by
  rw [exec, execCfgOrder, inPhase_of_eq hphase, hv]
  rfl

end InConfig

/-- Settles O14, by the verdict of `validate` on the string, the places of its letters, and the command's frame. -/
theorem cfgOrderResult : Obligations.CfgOrderResult := by
  intro s str
  refine ⟨decodeEncodeRoundTrip (.cfgOrder str) rfl, fun hphase => inPhase_of_ne hphase _, fun hphase hmissing => ?_,
    fun hphase hletters hlen => ?_, fun hphase hletters hlen => ?_⟩
  · have hv := validate_missing (Bool.eq_false_iff.2 fun hall => hmissing ((any_letters_iff str).1 hall))
    exact exec_cfgOrder_missing hphase hv
  · exact exec_cfgOrder_malformed hphase (validate_malformed ((any_letters_iff str).2 hletters) hlen)
  · obtain ⟨r, g, b, hv⟩ : ∃ r g b, validate str = .valid r g b :=
      ⟨_, _, _, validate_valid ((any_letters_iff str).2 hletters) hlen⟩
    have hexec := exec_cfgOrder_valid hphase hv
    obtain ⟨-, -, hR, hG, hB, -, hce⟩ := sameControl_renderAll { s with offR := r, offG := g, offB := b }
    have hrec := record_renderAll { s with offR := r, offG := g, offB := b } (validate_distinct hv)
    obtain ⟨hcol, hgb, hgm, hph, hout, hin⟩ := exec_cfgOrder_frame hexec
    refine ⟨_, hexec, ?_, fun k ch hk hch => ?_, fun k ch hk hch => ?_, fun k ch hk hch => ?_, ?_, hout, hcol, hgb,
      hgm, hph, hce, hin⟩
    · rw [responds, respond_rsp, renderAll_rsp]
    · obtain ⟨hplace, -, -⟩ := offset_of_validate hv hk
      rw [respond_offR, hR, hplace (isR_iff.2 hch)]
    · obtain ⟨-, hplace, -⟩ := offset_of_validate hv hk
      rw [respond_offG, hG, hplace (isG_iff.2 hch)]
    · obtain ⟨-, -, hplace⟩ := offset_of_validate hv hk
      rw [respond_offB, hB, hplace (isB_iff.2 hch)]
    · intro i hi
      rw [respond_offR, respond_offG, respond_offB, hR, hG, hB]
      exact hrec i hi

end Sys2Proof.Machine
end

section
/-! INIT (spec/43_frame_encoder.md R104), the equations in RUN of the commands that read or store colours (R106-R116),
and the results of those that only read. -/

namespace Sys2Proof.Machine

/-! ## INIT -/

section InConfig
variable {s : State} (hphase : s.phase = .config)
include hphase

/-- INIT after a configuration error (R104, R137). -/
theorem exec_init_of_cfgerr (herr : s.cfgerr = true) : exec .init s = .next (s.respond .errConfig []) := by
  rw [exec, execInit, inPhase_of_eq hphase, if_pos herr, raise]

/-- INIT without one (R104). -/
theorem exec_init_of_not_cfgerr (herr : s.cfgerr = false) :
    exec .init s = .next ({ s with phase := .run }.respond .ok []) := by
  rw [exec, execInit, inPhase_of_eq hphase, if_neg (Bool.eq_false_iff.1 herr), reply]

end InConfig

/-- Settles O18: a configuration error and CONFIG outlast any commands, so that INIT is refused after them too. -/
theorem initResult : Obligations.InitResult := fun s =>
  ⟨decodeEncodeRoundTrip .init rfl, fun hphase => inPhase_of_ne hphase _, exec_init_of_cfgerr,
    fun hphase herr is t hrun =>
      have ⟨hphase', herr'⟩ := configErrorKeepsConfig is s t hphase herr hrun
      exec_init_of_cfgerr hphase' herr',
    exec_init_of_not_cfgerr⟩

/-! ## The commands of RUN -/

section InRun
variable {s : State} (hrun : s.phase = .run)
include hrun

/-- SET_COLOUR at a position that names no LED (R107). -/
theorem exec_setColour_of_out {pos : BitVec 32} (hpos : pos.toInt < 0 ∨ (s.nLeds : Int) ≤ pos.toInt) (c : Colour) :
    exec (.setColour pos c) s = .next (s.respond .ok []) := by
  rw [exec, execSetColour, inPhase_of_eq hrun, posIndex_out hpos]
  rfl

theorem exec_setColours_of_run (e : List Colour) :
    exec (.setColours e) s = .next ((storeFrom s 0 (e.take s.nLeds)).respond .ok []) := by
  rw [exec, execSetColours, inPhase_of_eq hrun, reply]

/-- GET_COLOUR at a position that names no LED (R110). -/
theorem exec_getColour_of_out {pos : BitVec 32} (hpos : pos.toInt < 0 ∨ (s.nLeds : Int) ≤ pos.toInt) :
    exec (.getColour pos) s = .next (s.respond .ok [0, 0, 0, 0]) := by
  rw [exec, execGetColour, inPhase_of_eq hrun, posIndex_out hpos]
  rfl

theorem exec_snapshot_of_run : exec .snapshot s = .next (s.respond .ok (coloursBytes s.col)) := by
  rw [exec, execSnapshot, inPhase_of_eq hrun, reply]

theorem exec_getBrightness_of_run : exec .getBrightness s = .next (s.respond .ok [s.gbright]) := by
  rw [exec, execGetBrightness, inPhase_of_eq hrun, reply]

end InRun

/-- A position whose value is the number of an LED names that LED (R32). -/
theorem posIndex_of_toInt {n i : Nat} {pos : BitVec 32} (hpos : pos.toInt = i) (hi : i < n) :
    posIndex n pos = some i := by
  rw [posIndex_in (by omega) (by omega), hpos, Int.toNat_natCast]

/-! ## The reading commands -/

theorem lt_nLeds_of_getElem? {s : State} {i : Nat} {c : Colour} (h : s.col[i]? = some c) : i < s.nLeds :=
  (List.getElem?_eq_some_iff.1 h).1

theorem colour_of_getElem? {s : State} {i : Nat} {c : Colour} (h : s.col[i]? = some c) : s.colour i = c := by
  rw [State.colour, List.getD_eq_getElem?_getD, h, Option.getD_some]

/-- Settles O23: a position names the LED of its number, or none. -/
theorem getColourResult : Obligations.GetColourResult := by
  refine fun s pos => ⟨decodeEncodeRoundTrip (.getColour pos) rfl, fun hphase => inPhase_of_ne hphase _,
    fun hrun hpos => exec_getColour_of_out hrun hpos, fun hrun i c hpos hc => ?_⟩
  have hk := posIndex_of_toInt hpos (lt_nLeds_of_getElem? hc)
  rw [exec_getColour_of_posIndex hrun hk, colour_of_getElem? hc, Colour.bytes]

theorem coloursBytes_eq_flatten : ∀ e : List Colour,
    coloursBytes e = (e.map (fun c => [c.r, c.g, c.b, c.l])).flatten
  | [] => rfl
  | c :: cs => congrArg (c.bytes ++ ·) (coloursBytes_eq_flatten cs)

/-- Settles O25: the payload's bytes are those of the colours, one after another. -/
theorem snapshotResult : Obligations.SnapshotResult := fun s =>
  ⟨decodeEncodeRoundTrip .snapshot rfl, fun hphase => inPhase_of_ne hphase _, fun hrun => by
    rw [exec_snapshot_of_run hrun, coloursBytes_eq_flatten]⟩

/-- Settles O28, by the command's equation in RUN. -/
theorem getBrightnessResult : Obligations.GetBrightnessResult := fun _ =>
  ⟨decodeEncodeRoundTrip .getBrightness rfl, fun hphase => inPhase_of_ne hphase _, exec_getBrightness_of_run⟩

end Sys2Proof.Machine
end

section
/-! The commands that store colours (spec/43_frame_encoder.md R106-R109, R118), by the loop they share. -/

namespace Sys2Proof.Machine

/-! ## The records the store loop writes -/

/-- The record of an LED that the loop stores is the encoding of its entry under the control fields, which the loop
leaves alone. -/
theorem storeFrom_record_eq_encodeRecord {cs : List Colour} {s : State} {j i : Nat} (hlen : j + cs.length ≤ s.nLeds)
    (hoff : s.offsetsOk) (hlo : j ≤ i) (hhi : i < j + cs.length) :
    (storeFrom s j cs).record i
      = encodeRecord corrector (cs.getD (i - j) Colour.off) s.gbright s.gmode s.offR s.offG s.offB := by
  obtain ⟨hgb, hgm, hR, hG, hB, -, -⟩ := sameControl_storeFrom cs s j
  rw [storeFrom_record hlen hoff hlo hhi, State.encoded, storeFrom_colour hlen hlo hhi, hgb, hgm, hR, hG, hB]

theorem store_record {s : State} {k : Nat} (hk : k < s.nLeds) (hoff : s.offsetsOk) (c : Colour) :
    (store s k c).record k = encodeRecord corrector c s.gbright s.gmode s.offR s.offG s.offB := by
  have hrec := storeFrom_record_eq_encodeRecord (cs := [c]) hk hoff (Nat.le_refl k) (Nat.lt_succ_self k)
  rwa [Nat.sub_self] at hrec

/-! ## SET_COLOUR -/

/-- Settles O20: the colour stored, its record, and the command's frame. -/
theorem setColourResult : Obligations.SetColourResult := by
  refine fun s pos c => ⟨decodeEncodeRoundTrip (.setColour pos c) rfl, fun hphase => inPhase_of_ne hphase _,
    fun hrun hpos => exec_setColour_of_out hrun hpos c, fun hrun i hpos hi => ?_⟩
  have hk := posIndex_of_toInt hpos hi
  have hexec := exec_setColour_of_posIndex hrun hk c
  obtain ⟨hctl, hin, hcol, hout⟩ := exec_setColour_frame hexec
  simp only [hk, Option.some.injEq, ne_eq, forall_eq'] at hcol hout
  exact ⟨_, hexec, rfl, store_nLeds s i c, store_colour_same hi c, fun j hj => hcol j (Ne.symm hj),
    fun hoff => store_record hi hoff c, hout, hctl, hin⟩

/-! ## SET_COLOURS -/

/-- Format L refuses the lengths that are no whole number of Colours (R51, R57). -/
theorem operandsL_of_length_mod_ne {c : Command} {k : List Colour → Instr} {bytes : List Byte}
    (h : bytes.length % 4 ≠ 0) : operandsL c k bytes = .error (.wrongLength c) := by
  rw [operandsL, (coloursOfBytes_eq_none bytes).2 h]

/-- Settles O21: the entries the loop stores are the first `min(k, N_LEDS)`. -/
theorem setColoursResult : Obligations.SetColoursResult := by
  refine fun s e => ⟨decodeEncodeRoundTrip (.setColours e) rfl,
    fun ops hops => (decode_opcode .setColours ops).trans (operandsL_of_length_mod_ne hops),
    fun hphase => inPhase_of_ne hphase _, fun hrun => ?_⟩
  have hexec := exec_setColours_of_run hrun e
  obtain ⟨hctl, hin, hother, hout⟩ := exec_setColours_frame hexec
  have hlen : 0 + (e.take s.nLeds).length ≤ s.nLeds := by simp
  rw [List.length_take, Nat.min_comm] at hout
  refine ⟨_, hexec, by rw [responds, respond_rsp, storeFrom_rsp], storeFrom_nLeds _ s 0, fun j c hj hc => ?_,
    fun j hj => hother j ((List.length_take_le' _ e).trans hj), hout, hctl, hin⟩
  have hjlt : j < 0 + (e.take s.nLeds).length := by
    have := (List.getElem?_eq_some_iff.1 hc).1
    simp [hj, this]
  have hentry : (e.take s.nLeds).getD (j - 0) Colour.off = c := by simp [hj, hc]
  rw [respond_colour, respond_record, storeFrom_colour hlen j.zero_le hjlt, hentry]
  refine ⟨rfl, fun hoff => ?_⟩
  rw [storeFrom_record_eq_encodeRecord hlen hoff j.zero_le hjlt, hentry]

/-! ## SET_COLOURS as SET_COLOUR by one -/

/-- Every LED has a position, by the bound of R7. -/
theorem posIndex_ofNat {n j : Nat} (hn : n ≤ 2147483647) (hj : j < n) : posIndex n (BitVec.ofNat 32 j) = some j := by
  have hnat : (BitVec.ofNat 32 j).toNat = j := Nat.mod_eq_of_lt (by omega)
  have hint : (BitVec.ofNat 32 j).toInt = j := by
    rw [BitVec.toInt_eq_toNat_of_lt (by omega), hnat]
  exact posIndex_of_toInt hint hj

/-- The SET_COLOUR commands for colours at LEDs `j`, `j + 1`, ... (R109). -/
def setColourCommands (j : Nat) (cs : List Colour) : List Instr :=
  (cs.zipIdx j).map fun entry => .setColour (BitVec.ofNat 32 entry.2) entry.1

/-- The entries that SET_COLOURS has LEDs for, by index, are its list cut at the LED count. -/
theorem map_range_setColour_eq (n : Nat) (e : List Colour) :
    (List.range (min e.length n)).map (fun j => Instr.setColour (BitVec.ofNat 32 j) (e.getD j Colour.off))
      = setColourCommands 0 (e.take n) := by
  refine List.ext_getElem (by simp [setColourCommands, Nat.min_comm]) fun i hi _ => ?_
  rw [List.length_map, List.length_range, Nat.lt_min] at hi
  obtain ⟨hie, -⟩ := hi
  simp [setColourCommands, hie]

/-- Each command stores its colour and responds; the response does not reach the block, so the commands leave the block
as the loop does, at some ports. -/
theorem execAll_setColourCommands : ∀ (cs : List Colour) (s : State) (j : Nat), s.phase = .run →
    s.nLeds ≤ 2147483647 → j + cs.length ≤ s.nLeds →
    ∃ p, execAll (setColourCommands j cs) s = .next ((storeFrom s j cs).withPorts p)
  | [], s, _, _, _, _ => ⟨s, rfl⟩
  | c :: cs, s, j, hrun, hn, hlen => by
    rw [List.length_cons] at hlen
    have hfirst : exec (.setColour (BitVec.ofNat 32 j) c) s = .next ((store s j c).respond .ok []) :=
      exec_setColour_of_posIndex hrun (posIndex_ofNat hn (by omega)) c
    have hports : (store s j c).respond .ok [] = (store s j c).withPorts ((store s j c).respond .ok []) := rfl
    obtain ⟨p, hp⟩ := execAll_setColourCommands cs ((store s j c).respond .ok []) (j + 1) hrun
      (by simpa using hn) (by simp; omega)
    rw [hports, storeFrom_withPorts] at hp
    exact ⟨p, execAll_cons_eq_next.2 ⟨_, hfirst, hp⟩⟩

/-- Settles O22, by the loop that both sides run. -/
theorem setColoursIsSetColourByOne : Obligations.SetColoursIsSetColourByOne := by
  intro s t e hrun hn h
  obtain ⟨p, hp⟩ := execAll_setColourCommands (e.take s.nLeds) s 0 hrun hn (by simp)
  rw [exec_setColours_of_run hrun] at h
  cases h
  exact ⟨_, by rw [map_range_setColour_eq, hp], sameBlock_withPorts (storeFrom s 0 (e.take s.nLeds)) p⟩

/-! ## CLEAR -/

/-- The luminosity of Off is 0 at every brightness. -/
theorem effL_zero (gb : Byte) : effL gb 0 = 0 := by
  simp [effL]

/-- Channels of value 0 give three zero bytes, whatever the offsets. -/
theorem channelBytes_zero (l : Byte) (r g b : Slot) : channelBytes ⟨0, 0, 0, l⟩ r g b = [0, 0, 0] := by
  have hset : ∀ i, ([0, 0, 0] : List Byte).set i 0 = [0, 0, 0] := fun i => List.set_replicate_self (n := 3)
  rw [channelBytes, hset, hset, hset]

/-- Without the custom function the record of Off is E0 00 00 00: entry 0 of the gamma table is 0 (R83 G1). -/
theorem encodeRecord_off_of_ne_custom {mode : GMode} (hmode : mode ≠ .customCorrection) (gb : Byte) (r g b : Slot) :
    encodeRecord corrector Colour.off gb mode r g b = [0xE0, 0, 0, 0] := by
  have hchannels : channelBytes (corrector.corrected mode (working gb Colour.off)) r g b = [0, 0, 0] := by
    cases mode with
    | noCorrection => exact channelBytes_zero _ r g b
    | tableCorrection => exact channelBytes_zero _ r g b
    | customCorrection => exact absurd rfl hmode
  have hbrightness : brightnessByte (effL gb Colour.off.l) = 0xE0 := by
    rw [show Colour.off.l = 0 from rfl, effL_zero]
    rfl
  rw [encodeRecord_eq_cons, hchannels, hbrightness]

theorem exec_clear_eq_exec_setColours (s : State) :
    exec .clear s = exec (.setColours (List.replicate s.nLeds Colour.off)) s := by
  rw [exec, exec, execClear, execSetColours, List.take_of_length_le (by simp)]

/-- Settles O26, by the result of SET_COLOURS with Off for every LED. -/
theorem clearResult : Obligations.ClearResult := by
  refine fun s => ⟨decodeEncodeRoundTrip .clear rfl, fun hphase => inPhase_of_ne hphase _, fun hrun => ?_,
    exec_clear_eq_exec_setColours s⟩
  obtain ⟨-, -, -, hstored⟩ := setColoursResult s (List.replicate s.nLeds Colour.off)
  obtain ⟨t, hexec, hresp, hn, hset, -, hout, hctl, hin⟩ := hstored hrun
  rw [List.length_replicate, Nat.min_self] at hout
  refine ⟨t, (exec_clear_eq_exec_setColours s).trans hexec, hresp, hn, fun i hi => ?_, hout, hctl, hin⟩
  obtain ⟨hcol, hrec⟩ := hset i Colour.off hi (by simp [hi])
  exact ⟨hcol, hrec, fun hoff hmode => (hrec hoff).trans (encodeRecord_off_of_ne_custom hmode _ _ _ _)⟩

end Sys2Proof.Machine
end

section
/-! The global brightness (spec/43_frame_encoder.md R103, R114, R115). -/

namespace Sys2Proof.Machine

/-! ## SET_BRIGHTNESS -/

theorem renderAll_gbright (s : State) : (renderAll s).gbright = s.gbright := by rw [renderAll_eq]

/-- SET_BRIGHTNESS in RUN sets the scalar and writes every record by it (R114). -/
theorem exec_setBrightness_writes {s t : State} {v : Byte} (hrun : s.phase = .run)
    (h : exec (.setBrightness v) s = .next t) :
    t.gbright = v ∧ (s.offsetsOk → ∀ i, i < s.nLeds →
      t.record i = encodeRecord corrector (s.colour i) v s.gmode s.offR s.offG s.offB) := by
  rw [exec_setBrightness_of_run hrun] at h
  cases h
  exact ⟨renderAll_gbright _, record_renderAll { s with gbright := v }⟩

/-- Settles O27, by what the command writes and its frame. -/
theorem setBrightnessResult : Obligations.SetBrightnessResult := by
  refine fun s v => ⟨decodeEncodeRoundTrip (.setBrightness v) rfl, fun hphase => inPhase_of_ne hphase _,
    fun hrun => ?_⟩
  have hexec := exec_setBrightness_of_run hrun v
  obtain ⟨hgb, hrec⟩ := exec_setBrightness_writes hrun hexec
  obtain ⟨hcol, hgm, hR, hG, hB, hph, hce, hout, hin⟩ := exec_setBrightness_frame hexec
  exact ⟨_, hexec, by rw [responds, respond_rsp, renderAll_rsp], hgb, hcol, hrec, hout, hgm, hR, hG, hB, hph, hce,
    hin⟩

/-- Settles O30: the second command writes every record by what the first left alone and the old brightness, as it was
in the consistent block. -/
theorem brightnessRestores : Obligations.BrightnessRestores := by
  intro s t v hrun hoff hcons h
  obtain ⟨x, hx, h⟩ := execAll_cons_eq_next.1 h
  obtain ⟨y, hy, h⟩ := execAll_cons_eq_next.1 h
  cases h
  obtain ⟨hcol, hgm, hR, hG, hB, hph, hce, hout, -⟩ := exec_setBrightness_frame hx
  obtain ⟨hcol', hgm', hR', hG', hB', hph', hce', hout', -⟩ := exec_setBrightness_frame hy
  obtain ⟨hgb', hrec'⟩ := exec_setBrightness_writes (hph.trans hrun) hy
  have hn : x.nLeds = s.nLeds := congrArg List.length hcol
  have hcolour : ∀ i, x.colour i = s.colour i := fun i => by rw [State.colour, hcol, State.colour]
  rw [State.offsetsOk, hn, hgm, hR, hG, hB] at hrec'
  rw [hn] at hout'
  refine looksSame_of_records (j := 0) (n := s.nLeds) (hcol'.trans hcol)
    ⟨hgb', hgm'.trans hgm, hR'.trans hR, hG'.trans hG, hB'.trans hB, hph'.trans hph, hce'.trans hce⟩
    (fun i _ hi => ?_) (fun a ha => (hout' a ha).trans (hout a ha))
  rw [hrec' hoff i hi, hcolour, hcons i hi, State.encoded]

/-! ## The scaling -/

/-- A product of two bytes, divided by 255, is no more than either. -/
theorem mul_div_255_le (a b : Byte) : a.toNat * b.toNat / 255 ≤ b.toNat :=
  Nat.div_le_of_le_mul (Nat.mul_le_mul_right _ (Nat.le_of_lt_succ a.isLt))

/-- The effective L is the floored product: at 255 the stored L itself, below it a value that fits a byte (R103). -/
theorem toNat_effL (gb l : Byte) : (effL gb l).toNat = gb.toNat * l.toNat / 255 := by
  unfold effL
  split
  · subst_vars
    exact (Nat.mul_div_cancel_left l.toNat (by decide)).symm
  · exact Nat.mod_eq_of_lt ((mul_div_255_le gb l).trans_lt l.isLt)

/-- The three ones and the top five bits do not overlap. -/
theorem toNat_brightnessByte (e : Byte) : (brightnessByte e).toNat = 0xE0 + e.toNat / 8 := by
  have htop : e.toNat / 8 < 2 ^ 5 := by omega
  rw [brightnessByte, BitVec.toNat_or, BitVec.toNat_ushiftRight, Nat.shiftRight_eq_div_pow, Nat.or_comm]
  exact (Nat.two_pow_add_eq_or_of_lt htop 7).symm

/-- Settles O31, by the values of the two bytes. -/
theorem effectiveLuminosity : Obligations.EffectiveLuminosity := by
  intro gb l
  have hle_l := mul_div_255_le gb l
  have hle_gb := mul_div_255_le l gb
  rw [Nat.mul_comm] at hle_gb
  rw [toNat_brightnessByte, toNat_effL]
  exact ⟨rfl, hle_l, hle_gb, rfl⟩

end Sys2Proof.Machine
end

section
/-! UPDATE and the sink (spec/43_frame_encoder.md R120, R122). -/

namespace Sys2Proof.Machine

/-- The status an answer of the sink gives UPDATE, for a frame of `len` bytes: the error is tested before the count
(R120). -/
def answerStatus (len : Nat) (answer : SinkAnswer) : Status :=
  if answer.err then .errSendSink else if answer.acc ≠ len then .errSendShort else .ok

section AnswerStatus
variable {len : Nat} {answer : SinkAnswer}

theorem answerStatus_of_err (h : answer.err = true) : answerStatus len answer = .errSendSink := if_pos h

theorem answerStatus_of_short (h : answer.err = false) (hacc : answer.acc ≠ len) :
    answerStatus len answer = .errSendShort := by
  rw [answerStatus, if_neg (Bool.eq_false_iff.1 h), if_pos hacc]

theorem answerStatus_of_whole (h : answer.err = false) (hacc : answer.acc = len) : answerStatus len answer = .ok := by
  rw [answerStatus, if_neg (Bool.eq_false_iff.1 h), if_neg (not_not_intro hacc)]

end AnswerStatus

/-- UPDATE in RUN with an answer waiting (R120). -/
theorem exec_update_of_answer {s : State} {answer : SinkAnswer} {later : List SinkAnswer} (hrun : s.phase = .run)
    (hsink : s.sink = answer :: later) :
    exec .update s
      = .next (State.respond { s with sink := later, snk := s.snk ++ [⟨s.frame, answer⟩] }
          (answerStatus (frameLen s.nLeds) answer) []) := by
  rw [exec, execUpdate, inPhase_of_eq hrun, sinkOffer_cons hsink, answerStatus]
  dsimp only
  split
  · rfl
  · split <;> rfl

theorem frame_getElem? {s : State} {a : Nat} (ha : a < frameLen s.nLeds) : s.frame[a]? = some (s.buf.read a) := by
  simp [State.frame, Memory.readBytes, ha]

/-- Settles O32: the bytes offered are the frame. -/
theorem updateResult : Obligations.UpdateResult := by
  refine fun s answer later => ⟨decodeEncodeRoundTrip .update rfl, fun hphase => inPhase_of_ne hphase _,
    fun hrun hsink => ?_⟩
  have hexec := exec_update_of_answer hrun hsink
  refine ⟨_, s.frame, hexec, sameBlock_of_exec_update hexec, rfl, frame_length s, fun _ => frame_getElem?, rfl, rfl,
    fun herr => ?_, fun herr hacc => ?_, fun herr hacc => ?_⟩
  · rw [answerStatus_of_err herr]
    rfl
  · rw [answerStatus_of_short herr hacc]
    rfl
  · rw [answerStatus_of_whole herr hacc]
    rfl

/-- Settles O34: no other command has an effect on the ports. -/
theorem onlyUpdateOffers : Obligations.OnlyUpdateOffers := by
  intro i s t hi h
  obtain ⟨-, hsink, hsnk⟩ := exec_sameInputs h hi
  exact ⟨hsnk, hsink⟩

end Sys2Proof.Machine
end

section
/-! HexParse on the text forms of a Colour (spec/44_host_text_forms.md R127, R128). -/

namespace Sys2Proof.Machine

/-! ## Digits -/

/-- The codes a digit is written with; the two cases differ from ten on (R127). -/
theorem toNat_hexChar (upper : Bool) {v : Nat} (hv : v < 16) :
    (hexChar upper v).toNat = if v < 10 then 48 + v else if upper then 55 + v else 87 + v := by
  have toNat_ofNat {n : Nat} (hn : n < 0xD800) : (Char.ofNat n).toNat = n := by
    rw [Char.toNat_ofNat, if_pos (Or.inl hn)]
  unfold hexChar
  split
  · exact toNat_ofNat (by omega)
  · split <;> exact toNat_ofNat (by omega)

/-- A digit is read back by its code's range: decimal, upper case or lower case. -/
theorem hexDigit_hexChar (upper : Bool) {v : Nat} (hv : v < 16) : hexDigit (hexChar upper v) = some v := by
  rw [hexDigit, toNat_hexChar upper hv]
  by_cases hdec : v < 10
  · have hrange : 48 ≤ 48 + v ∧ 48 + v ≤ 57 := by omega
    simp [hdec, hrange]
  · cases upper
    · have hnotDec : ¬ 87 + v ≤ 57 := by omega
      have hnotUpper : ¬ 87 + v ≤ 70 := by omega
      have hrange : 97 ≤ 87 + v ∧ 87 + v ≤ 102 := by omega
      simp [hdec, hnotDec, hnotUpper, hrange]
    · have hnotDec : ¬ 55 + v ≤ 57 := by omega
      have hrange : 65 ≤ 55 + v ∧ 55 + v ≤ 70 := by omega
      simp [hdec, hnotDec, hrange]

/-- A byte is sixteen times its first digit plus its second. -/
@[simp] theorem hexPair_hexChar (upper : Bool) (v : Byte) :
    hexPair (hexChar upper (v.toNat / 16)) (hexChar upper (v.toNat % 16)) = some v := by
  have hfirst : v.toNat / 16 < 16 := by omega
  have hsecond : v.toNat % 16 < 16 := by omega
  simp [hexPair, hexDigit_hexChar upper hfirst, hexDigit_hexChar upper hsecond, Nat.div_add_mod]

/-! ## The text forms -/

theorem hexForm_hexText (upper : Bool) (c : Colour) : hexForm (hexText upper c) = some c := by
  simp [hexText, hexChars, hexForm, colourOfPairs]

theorem hexForm_hexText_take_seven (upper : Bool) (c : Colour) :
    hexForm ((hexText upper c).take 7) = some ⟨c.r, c.g, c.b, 255⟩ := by
  simp [hexText, hexChars, hexForm, colourOfPairs]

theorem length_of_hexForm_eq_some {text : List Char} {c : Colour} (h : hexForm text = some c) :
    text.length = 7 ∨ text.length = 9 := by
  unfold hexForm at h
  split at h
  · exact .inl rfl
  · exact .inr rfl
  · cases h

/-! ## HexParse -/

theorem hexParse_of_hexForm {text : List Char} {c : Colour} (h : hexForm text = some c) : hexParse text = c := by
  rw [hexParse, h]

theorem hexParse_of_length {text : List Char} (h7 : text.length ≠ 7) (h9 : text.length ≠ 9) :
    hexParse text = ⟨0, 0, 0, 255⟩ := by
  have hnone : hexForm text = none :=
    Option.eq_none_iff_forall_ne_some.2 fun c hc => (length_of_hexForm_eq_some hc).elim h7 h9
  rw [hexParse, hnone]
  exact if_pos ⟨h7, h9⟩

/-- Settles O58: the digits of a byte are read back, and a text form has one of two lengths. -/
theorem hexParseForms : Obligations.HexParseForms :=
  ⟨fun upper c => hexParse_of_hexForm (hexForm_hexText upper c),
    fun upper c => hexParse_of_hexForm (hexForm_hexText_take_seven upper c),
    fun _ => hexParse_of_length⟩

end Sys2Proof.Machine
end

section
/-! Responses and errors (spec/60_exceptions.md R140-R144, R149): the step on an illegal packet, and what a command is
answered, said once for every command. -/

namespace Sys2Proof.Machine

/-! ## Steps that run no command -/

/-- A step on a packet the decoder refuses (R140). -/
theorem step_of_decode_error {s : State} {p : Packet} {rest : List HostEvent} {e : Illegal}
    (hs : s.host = .packet p :: rest) (hp : decode p = .error e) :
    step s = .next ((takeOffer rest s).respond .errIllegal []) := by
  simp only [step, hs, hp, answerIllegal, raise]

/-- The decoder refuses the packets R57 lists. -/
theorem decode_of_illegalPacket {p : Packet} (h : IllegalPacket p) : ∃ e, decode p = .error e := by
  obtain ⟨-, herr⟩ | ⟨hlegal, -⟩ := decoderRefusesExactlyIllegal p
  · exact herr
  · exact absurd h hlegal

/-- Settles O6: the decoder refuses the packet, and the answer is the step's only other effect. -/
theorem stepAnswersIllegal : Obligations.StepAnswersIllegal := by
  intro s p rest hs hp
  obtain ⟨e, he⟩ := decode_of_illegalPacket hp
  exact ⟨_, step_of_decode_error hs he, sameBlock_respond (takeOffer rest s) _ _, rfl, rfl, rfl, rfl⟩

/-- Settles O7, by the step's equation for an empty list of offers. -/
theorem stepIdleHolds : Obligations.StepIdleHolds := fun s hs => by
  simp only [step, hs]

/-! ## The phase check -/

/-- The mode of a well-formed CFG_GAMMA is one of the three (R57). -/
theorem exists_gmode_of_wellFormed {mode : Byte} (hw : WellFormed (.cfgGamma mode)) : ∃ g : GMode, mode = g.code := by
  have hle : mode.toNat ≤ 2 := wellFormed_iff.1 hw mode rfl
  obtain rfl | rfl | rfl : mode = 0 ∨ mode = 1 ∨ mode = 2 := by bv_omega
  · exact ⟨.noCorrection, rfl⟩
  · exact ⟨.tableCorrection, rfl⟩
  · exact ⟨.customCorrection, rfl⟩

/-- A legal command in a phase that does not accept it (R141). -/
theorem exec_of_wrong_phase {i : Instr} {s : State} (hw : WellFormed i)
    (hphase : phaseAccepts i.command s.phase = false) : exec i s = .next (s.respond .errPhase []) := by
  cases i with
  | cfgGamma mode =>
    obtain ⟨g, rfl⟩ := exists_gmode_of_wellFormed hw
    exact (exec_cfgGamma_code g s).trans (inPhase_of_ne (ne_of_beq_false hphase) _)
  | blend => cases hphase
  | _ => exact inPhase_of_ne (ne_of_beq_false hphase) _

/-- Settles O43; BLEND has no phase check. -/
theorem wrongPhaseAnswered : Obligations.WrongPhaseAnswered := by
  refine ⟨fun i s => exec_of_wrong_phase, fun s t o g q h => ⟨(blend o g q).bytes, ?_⟩⟩
  obtain rfl : s.respond .ok (blend o g q).bytes = t := (reply_eq_next _ s t).1 h
  exact respond_rsp s _ _

/-! ## A command's own tests -/

/-- The status of an order string's verdict (R96). -/
def verdictStatus : OrderVerdict → Status
  | .missing => .errOrderMissing
  | .malformed => .errOrderMalformed
  | .valid _ _ _ => .ok

/-- The letters are tested before the length (R94). -/
theorem verdictStatus_validate (str : List Byte) :
    verdictStatus (validate str)
      = if ¬ hasAllLetters str then .errOrderMissing else if str.length ≠ 3 then .errOrderMalformed else .ok := by
  by_cases hletters : hasAllLetters str
  · have hany := (any_letters_iff str).2 hletters
    rw [if_neg (not_not_intro hletters)]
    by_cases hlen : str.length = 3
    · rw [validate_valid hany hlen, if_neg (not_not_intro hlen), verdictStatus]
    · rw [validate_malformed hany hlen, if_pos hlen, verdictStatus]
  · have hany := Bool.eq_false_iff.2 fun hall => hletters ((any_letters_iff str).1 hall)
    rw [validate_missing hany, if_pos hletters, verdictStatus]

/-- The status the tests of the command itself give, once its phase accepts it (step 3 of R143). -/
def ownStatus (s : State) : Instr → Status
  | .cfgOrder str => verdictStatus (validate str)
  | .init => if s.cfgerr then .errConfig else .ok
  | .update =>
    match s.sink with
    | [] => .ok
    | answer :: _ => answerStatus (frameLen s.nLeds) answer
  | _ => .ok

theorem ownStatus_update_of_answer {s : State} {answer : SinkAnswer} {later : List SinkAnswer}
    (hsink : s.sink = answer :: later) : ownStatus s .update = answerStatus (frameLen s.nLeds) answer := by
  simp only [ownStatus, hsink]

/-! ## The first test that fails -/

section FirstFailure
variable {s : State} {p : Packet}

theorem firstFailure_of_error {e : Illegal} (hp : decode p = .error e) : firstFailure s p = .errIllegal := by
  simp only [firstFailure, hp]

variable {i : Instr} (hp : decode p = .ok i)
include hp

theorem firstFailure_of_wrong_phase (hphase : phaseAccepts i.command s.phase = false) :
    firstFailure s p = .errPhase := by
  simp only [firstFailure, hp, if_pos hphase]

theorem firstFailure_of_accepted (hphase : phaseAccepts i.command s.phase = true) :
    firstFailure s p = ownStatus s i := by
  have hnot : ¬ phaseAccepts i.command s.phase = false := by simp [hphase]
  simp only [firstFailure, hp, if_neg hnot]
  cases i with
  | cfgOrder str => exact (verdictStatus_validate str).symm
  | _ => rfl

end FirstFailure

/-! ## The answer -/

/-- What a status other than OK leaves of the block: everything but CFGERR, and that too unless a CFG_ORDER failed
(R144). -/
def ErrorLeaves (s : State) (st : Status) (u : State) : Prop :=
  ((st = .errOrderMissing ∨ st = .errOrderMalformed) ∧ sameBlock (setCfgErr s) u) ∨
    ((st ≠ .errOrderMissing ∧ st ≠ .errOrderMalformed) ∧ sameBlock s u)

/-- The outcome is a next state: one response with status `st`, given after a precise change of the block. -/
def Answered (s : State) (st : Status) (out : Result) : Prop :=
  ∃ u payload, out = .next (u.respond st payload) ∧ u.rsp = s.rsp ∧ (st ≠ .ok → ErrorLeaves s st u)

section Answered
variable {s u : State} {st : Status}

theorem answered_reply {payload : List Byte} (hrsp : u.rsp = s.rsp) : Answered s .ok (reply payload u) :=
  ⟨u, payload, rfl, hrsp, fun hne => absurd rfl hne⟩

/-- An error that is not of CFG_ORDER's own leaves the block as it was. -/
theorem answered_raise (hmissing : st ≠ .errOrderMissing) (hmalformed : st ≠ .errOrderMalformed) :
    Answered s st (raise st s) :=
  ⟨s, [], rfl, rfl, fun _ => .inr ⟨⟨hmissing, hmalformed⟩, sameBlock_refl s⟩⟩

theorem answered_inPhase {ph : Phase} {go : Result} (hphase : s.phase = ph) (h : Answered s st go) :
    Answered s st (inPhase ph s go) := by
  rwa [inPhase_of_eq hphase]

/-- The response and what it leaves of the block, read off the next state. -/
theorem response_of_answered {out : Result} {t : State} (h : Answered s st out) (ht : out = .next t) :
    ∃ payload, responds s t st payload ∧ (st ≠ .ok → ErrorLeaves s st t) := by
  obtain ⟨u, payload, rfl, hrsp, hleaves⟩ := h
  cases ht
  exact ⟨payload, by rw [responds, respond_rsp, hrsp], hleaves⟩

end Answered

theorem answerStatus_ne_order (len : Nat) (answer : SinkAnswer) :
    answerStatus len answer ≠ .errOrderMissing ∧ answerStatus len answer ≠ .errOrderMalformed := by
  unfold answerStatus
  split
  · decide
  · split <;> decide

/-- CFG_ORDER in CONFIG: a string that fails sets CFGERR (R96). -/
theorem exec_cfgOrder_answered {s : State} (hphase : s.phase = .config) (str : List Byte) :
    Answered s (verdictStatus (validate str)) (exec (.cfgOrder str) s) := by
  cases hv : validate str with
  | missing =>
    rw [exec_cfgOrder_missing hphase hv]
    exact ⟨_, _, rfl, rfl, fun _ => .inl ⟨.inl rfl, sameBlock_refl _⟩⟩
  | malformed =>
    rw [exec_cfgOrder_malformed hphase hv]
    exact ⟨_, _, rfl, rfl, fun _ => .inl ⟨.inr rfl, sameBlock_refl _⟩⟩
  | valid r g b =>
    rw [exec_cfgOrder_valid hphase hv]
    exact answered_reply (renderAll_rsp _)

/-- INIT in CONFIG (R104). -/
theorem exec_init_answered {s : State} (hphase : s.phase = .config) :
    Answered s (ownStatus s .init) (exec .init s) := by
  cases herr : s.cfgerr with
  | true =>
    rw [exec_init_of_cfgerr hphase herr, ownStatus, if_pos herr]
    exact answered_raise (by decide) (by decide)
  | false =>
    rw [exec_init_of_not_cfgerr hphase herr, ownStatus, if_neg (Bool.eq_false_iff.1 herr)]
    exact answered_reply rfl

/-- UPDATE in RUN with an answer of the sink to come (R120). -/
theorem exec_update_answered {s : State} (hphase : s.phase = .run) (hsink : s.sink ≠ []) :
    Answered s (ownStatus s .update) (exec .update s) := by
  obtain ⟨answer, later, hcons⟩ := List.exists_cons_of_ne_nil hsink
  rw [exec_update_of_answer hphase hcons, ownStatus_update_of_answer hcons]
  exact ⟨_, _, rfl, rfl, fun _ => .inr ⟨answerStatus_ne_order _ answer, sameBlock_refl s⟩⟩

/-- A legal command in a phase that accepts it is answered what its own tests say. -/
theorem exec_answered_of_accepted {i : Instr} {s : State} (hw : WellFormed i)
    (hphase : phaseAccepts i.command s.phase = true) (hsink : i = .update → s.phase = .run → s.sink ≠ []) :
    Answered s (ownStatus s i) (exec i s) := by
  cases i with
  | cfgOrder str => exact exec_cfgOrder_answered (eq_of_beq hphase) str
  | cfgGamma mode =>
    obtain ⟨g, rfl⟩ := exists_gmode_of_wellFormed hw
    rw [exec_cfgGamma_code]
    exact answered_inPhase (eq_of_beq hphase) (answered_reply (renderAll_rsp _))
  | init => exact exec_init_answered (eq_of_beq hphase)
  | setColour pos c =>
    refine answered_inPhase (eq_of_beq hphase) ?_
    split <;> exact answered_reply rfl
  | setColours e => exact answered_inPhase (eq_of_beq hphase) (answered_reply (storeFrom_rsp _ _ _))
  | getColour pos =>
    refine answered_inPhase (eq_of_beq hphase) ?_
    split <;> exact answered_reply rfl
  | snapshot => exact answered_inPhase (eq_of_beq hphase) (answered_reply rfl)
  | setBrightness v => exact answered_inPhase (eq_of_beq hphase) (answered_reply (renderAll_rsp _))
  | getBrightness => exact answered_inPhase (eq_of_beq hphase) (answered_reply rfl)
  | clear => exact answered_inPhase (eq_of_beq hphase) (answered_reply (storeFrom_rsp _ _ _))
  | update => exact exec_update_answered (eq_of_beq hphase) (hsink rfl (eq_of_beq hphase))
  | blend o t q => exact answered_reply rfl

/-- The command of a legal packet is answered the status of the first test that fails. -/
theorem exec_answered {i : Instr} {s : State} {p : Packet} (hp : decode p = .ok i)
    (hsink : i = .update → s.phase = .run → s.sink ≠ []) : Answered s (firstFailure s p) (exec i s) := by
  obtain ⟨-, hw⟩ := encodeDecodeRoundTrip p i hp
  cases hphase : phaseAccepts i.command s.phase with
  | false =>
    rw [firstFailure_of_wrong_phase hp hphase, exec_of_wrong_phase hw hphase]
    exact answered_raise (by decide) (by decide)
  | true =>
    rw [firstFailure_of_accepted hp hphase]
    exact exec_answered_of_accepted hw hphase hsink

/-- An UPDATE in RUN that completes found an answer of the sink (R160). -/
theorem sink_ne_nil_of_exec {i : Instr} {s t : State} (h : exec i s = .next t) :
    i = .update → s.phase = .run → s.sink ≠ [] := by
  rintro rfl hrun
  obtain ⟨answer, later, hsink, -⟩ := offer_of_exec_update hrun h
  simp [hsink]

/-- A term that is not well formed is answered ERR_ILLEGAL (log entry 9). -/
theorem exec_of_not_wellFormed {i : Instr} (hw : ¬ WellFormed i) (s : State) :
    exec i s = .next (s.respond .errIllegal []) := by
  simp only [wellFormed_iff, not_forall, not_le] at hw
  obtain ⟨mode, rfl, hmode⟩ := hw
  exact cfgGammaReservedMode s mode hmode

/-- Every command that the sink does not leave waiting is answered some status, with a precise change of the block. -/
theorem exec_answered_some {i : Instr} {s : State} (hsink : i = .update → s.phase = .run → s.sink ≠ []) :
    ∃ st, Answered s st (exec i s) := by
  by_cases hw : WellFormed i
  · exact ⟨_, exec_answered (decodeEncodeRoundTrip i hw) hsink⟩
  · rw [exec_of_not_wellFormed hw]
    exact ⟨_, answered_raise (by decide) (by decide)⟩

/-! ## The table of R142 -/

theorem mayAnswer_ok (c : Command) : mayAnswer c .ok = true := by
  cases c <;> rfl

/-- Every command but BLEND may answer ERR_PHASE, and BLEND is accepted in both phases. -/
theorem mayAnswer_errPhase {c : Command} {ph : Phase} (h : phaseAccepts c ph = false) :
    mayAnswer c .errPhase = true := by
  cases c with
  | blend => cases h
  | _ => rfl

theorem mayAnswer_update_answerStatus (len : Nat) (answer : SinkAnswer) :
    mayAnswer .update (answerStatus len answer) = true := by
  unfold answerStatus
  split
  · rfl
  · split <;> rfl

theorem mayAnswer_ownStatus (s : State) (i : Instr) : mayAnswer i.command (ownStatus s i) = true := by
  cases i with
  | cfgOrder str =>
    rw [ownStatus]
    cases validate str <;> rfl
  | init =>
    rw [ownStatus]
    split <;> rfl
  | update =>
    cases hsink : s.sink with
    | nil => simp only [ownStatus, hsink]; rfl
    | cons answer later =>
      rw [ownStatus_update_of_answer hsink]
      exact mayAnswer_update_answerStatus _ answer
  | _ => exact mayAnswer_ok _

theorem mayAnswer_firstFailure {i : Instr} {p : Packet} (hp : decode p = .ok i) (s : State) :
    mayAnswer i.command (firstFailure s p) = true := by
  cases hphase : phaseAccepts i.command s.phase with
  | false =>
    rw [firstFailure_of_wrong_phase hp hphase]
    exact mayAnswer_errPhase hphase
  | true =>
    rw [firstFailure_of_accepted hp hphase]
    exact mayAnswer_ownStatus s i

/-! ## The obligations -/

/-- Settles O45: the status is that of the first test that fails, and the table allows it. -/
theorem statusOfCommand : Obligations.StatusOfCommand := by
  intro i s t hw h
  have hp := decodeEncodeRoundTrip i hw
  obtain ⟨payload, hresp, -⟩ := response_of_answered (exec_answered hp (sink_ne_nil_of_exec h)) h
  exact ⟨_, payload, hresp, mayAnswer_firstFailure hp s⟩

/-- Settles O46: a packet the decoder refuses is answered by the step itself, any other by its command. -/
theorem firstFailingTestDecides : Obligations.FirstFailingTestDecides := by
  intro s t p rest hs h
  cases hp : decode p with
  | error e =>
    rw [step_of_decode_error hs hp] at h
    cases h
    exact ⟨[], by rw [firstFailure_of_error hp]; rfl⟩
  | ok i =>
    rw [step_of_decode_ok hs hp] at h
    obtain ⟨payload, hresp, -⟩ := response_of_answered (exec_answered hp (sink_ne_nil_of_exec h)) h
    exact ⟨payload, hresp⟩

/-- Settles O47: the one response fixes the status, and an error of that status is precise. -/
theorem errorsArePrecise : Obligations.ErrorsArePrecise := by
  intro i s t st payload h hresp hne
  obtain ⟨st', hanswered⟩ := exec_answered_some (sink_ne_nil_of_exec h)
  obtain ⟨payload', hresp', hleaves⟩ := response_of_answered hanswered h
  obtain ⟨rfl, -⟩ : st' = st ∧ payload' = payload := by simpa [responds] using hresp'.symm.trans hresp
  exact hleaves hne

/-- Settles O48: a command that is answered completes. -/
theorem nothingElseStops : Obligations.NothingElseStops := by
  intro i s hsink
  obtain ⟨st, u, payload, hexec, -⟩ := exec_answered_some hsink
  exact ⟨_, hexec⟩

end Sys2Proof.Machine
end

section
/-! Reset (spec/70_reset_and_hazards.md R151), and the sink that never answers (R160). -/

namespace Sys2Proof.Machine

/-! ## Reset -/

theorem step_of_reset {s : State} {rest : List HostEvent} (hs : s.host = .reset :: rest) :
    step s = .next (hostReset (takeOffer rest s)) := by
  simp only [step, hs]

theorem hostReset_colour (s : State) (i : Nat) : (hostReset s).colour i = Colour.off :=
  resetFor_colour s.nLeds i

theorem hostReset_record {s : State} {i : Nat} (hi : i < s.nLeds) : (hostReset s).record i = [0xE0, 0, 0, 0] :=
  resetFor_record hi

theorem hostReset_framed (s : State) : (hostReset s).framed := fun a ha =>
  resetFor_framed s.nLeds a (by simpa using ha)

/-- Settles O8: the step is the reset of the state with the offer taken, and a reset block holds the contents of R30. -/
theorem stepResets : Obligations.StepResets := by
  intro s rest hs
  refine ⟨_, step_of_reset hs, rfl, rfl, hostReset_nLeds _, rfl, rfl, rfl, rfl, rfl, rfl, rfl,
    fun i _ => hostReset_colour _ i, fun i hi => ?_, fun a ha => ?_⟩
  · exact hostReset_record (by simpa using hi)
  · exact hostReset_framed _ a (by simpa [base] using ha)

/-! ## The sink that never answers -/

/-- Settles O33: UPDATE passes the phase check, and its offer finds no answer. -/
theorem updateWaitsForSink : Obligations.UpdateWaitsForSink := by
  intro s hrun hsink
  rw [exec, execUpdate, inPhase_of_eq hrun, sinkOffer_nil hsink]

end Sys2Proof.Machine
end

section
/-! BLEND is monotone in its ratio: with the ratio clamped to 0..256 the three cases of spec/40_colour_model.md R77 are one
sum, and the floored step of that sum is monotone in the ratio. -/

namespace Sys2Proof.Machine

/-! ## One channel as one sum -/

/-- The ratio as R77 uses it: below 0 it counts as 0, from 1 up (256) as 1. -/
def clampedRatio (q : BitVec 16) : Int := max 0 (min (ratio q) 256)

theorem clampedRatio_mono {q q' : BitVec 16} (h : q.toInt ≤ q'.toInt) : clampedRatio q ≤ clampedRatio q' :=
  max_le_max_left 0 (min_le_min_right 256 h)

/-- The three cases of R77 in one: the step is 0 at ratio 0 and the whole difference at ratio 1. -/
theorem toNat_blend8_clamped (o t : Byte) (q : BitVec 16) :
    ((blend8 o t q).toNat : Int) = o.toNat + (t.toNat - o.toNat) * clampedRatio q / 256 := by
  rw [clampedRatio, ratio]
  rcases le_or_gt q.toInt 0 with hlow | hpos
  · rw [blend8_of_nonpos hlow, max_eq_left (min_le_of_left_le hlow)]
    omega
  · rcases le_or_gt 256 q.toInt with hhigh | hlt
    · rw [blend8_of_ge hhigh, min_eq_right hhigh, max_eq_right (by norm_num)]
      omega
    · rw [toNat_blend8 hpos hlt, min_eq_left hlt.le, max_eq_right hpos.le]

/-! ## The obligation -/

/-- Settles O39: the sign of the difference says which way the product with the clamped ratio moves, and the floor keeps
the order. -/
theorem blendMonotoneInRatio : Obligations.BlendMonotoneInRatio := by
  intro o t q q' hq
  have hsum := toNat_blend8_clamped o t q
  have hsum' := toNat_blend8_clamped o t q'
  have hclamp := clampedRatio_mono hq
  refine ⟨fun hup => ?_, fun hdown => ?_⟩
  · have hd : 0 ≤ (t.toNat : Int) - o.toNat := by omega
    have hstep := Int.ediv_le_ediv (c := 256) (by norm_num) (Int.mul_le_mul_of_nonneg_left hclamp hd)
    omega
  · have hd : (t.toNat : Int) - o.toNat ≤ 0 := by omega
    have hstep := Int.ediv_le_ediv (c := 256) (by norm_num) (Int.mul_le_mul_of_nonpos_left hd hclamp)
    omega

end Sys2Proof.Machine
end
